-- ==== Sys2Proof/Word.lean ====
section
/-! DEFINITION. The machine's one word type: the byte of registers, memory cells and instruction
bytes (spec/10_state.md R11, R22; spec/30_encoding.md R50). -/

namespace Sys2Proof

/-- An unsigned 8-bit value, 0 to 255 (`CELL_BITS = 8`, spec/00_scope.md R5). -/
abbrev Byte := BitVec 8

end Sys2Proof
end

