-- ==== Sys2Proof/Config.lean ====
section
/-! DEFINITION. The parameters of the core (spec/00_scope.md R5): the fixed ones as constants, the
position of the Less and Greater flags as an opaque constant, and the names of the two readings of
CMP. The opcode map `OPC` stands in Sys2Proof/Decode.lean and the choices that follow from these
names in Sys2Proof/Machine/Flags.lean. -/

namespace Sys2Proof.Config

/-- `MEM_SIZE`: the number of memory cells (spec/00_scope.md R5, spec/10_state.md R22). -/
def memSize : Nat := 256

/-- `NUM_REGS`: the number of general registers (spec/10_state.md R11). -/
def numRegs : Nat := 8

/-- What every memory cell holds after reset, hence what an unlisted address reads as
(spec/10_state.md R24: "Memory zeroed"). -/
def memReset : Byte := 0x00#8

/-- `SP_RESET`: the reset value of register 7 (spec/10_state.md R24). -/
def spReset : Byte := 0xF4#8

/-- `PC_RESET`: the entry point (spec/10_state.md R24, spec/70_reset_and_hazards.md R162). -/
def pcReset : Nat := 0

/-- Which of the two admissible flag layouts the implementation has (spec/10_state.md R17,
spec/92_eei_decisions.md D2): false for `FL_L = 0x02`, `FL_G = 0x04` (the spec's default), true for
`FL_L = 0x04`, `FL_G = 0x02`. The spec leaves it open, so it is a constant without a value: a theorem
of this model holds under both layouts (log entry 2, DESIGN CHOICE, safe). -/
opaque lessIsBit2 : Bool

/-- The two readings of CMP, `CMP_MODE` (spec/42_alu.md R93, R97): the registers' contents, or the
operand bytes themselves (the set-aside reading of the reference). -/
inductive CmpMode
  | values
  | rawOperands
  deriving DecidableEq, Repr

end Sys2Proof.Config
end

