-- ==== Sys2Proof/Syntax.lean ====
section
/-! DEFINITION. The instruction set as syntax: the thirteen mnemonics and the instructions with their
operand bytes (spec/00_scope.md R1, spec/30_encoding.md R51). -/

namespace Sys2Proof

/-- The thirteen mnemonics, in the order of the spec's table (spec/30_encoding.md R55). -/
inductive Mnemonic
  | LDI | PRN | HLT | ADD | MUL | PUSH | POP | CALL | RET | CMP | JMP | JEQ | JNE
  deriving DecidableEq, Repr

/-- One instruction with its operand bytes, one constructor per row of spec/opcode_table.json.
A register operand is the whole operand byte: a byte of 8 or more decodes, and is a fault of the
decoded instruction (spec/30_encoding.md R53, R56). Operands stand in the order of the encoding. -/
inductive Instr
  /-- LDI: register, immediate (spec/41_load_print.md R85). -/
  | ldi (n imm : Byte)
  /-- PRN: register (spec/41_load_print.md R86). -/
  | prn (n : Byte)
  /-- HLT (spec/40_dispatcher.md R75). -/
  | hlt
  /-- ADD: destination and first source, second source (spec/42_alu.md R91). -/
  | add (a b : Byte)
  /-- MUL: destination and first source, second source (spec/42_alu.md R92). -/
  | mul (a b : Byte)
  /-- PUSH: register (spec/43_stack.md R101). -/
  | push (n : Byte)
  /-- POP: register (spec/43_stack.md R102). -/
  | pop (n : Byte)
  /-- CALL: register that holds the target (spec/44_control_transfer.md R111). -/
  | call (n : Byte)
  /-- RET (spec/44_control_transfer.md R112). -/
  | ret
  /-- CMP: left operand, right operand (spec/42_alu.md R93). -/
  | cmp (a b : Byte)
  /-- JMP: register that holds the target (spec/44_control_transfer.md R113). -/
  | jmp (n : Byte)
  /-- JEQ: register that holds the target (spec/44_control_transfer.md R114). -/
  | jeq (n : Byte)
  /-- JNE: register that holds the target (spec/44_control_transfer.md R115). -/
  | jne (n : Byte)
  deriving DecidableEq, Repr

/-- The mnemonic an instruction belongs to. -/
def Instr.mnemonic : Instr → Mnemonic
  | .ldi _ _ => .LDI
  | .prn _ => .PRN
  | .hlt => .HLT
  | .add _ _ => .ADD
  | .mul _ _ => .MUL
  | .push _ => .PUSH
  | .pop _ => .POP
  | .call _ => .CALL
  | .ret => .RET
  | .cmp _ _ => .CMP
  | .jmp _ => .JMP
  | .jeq _ => .JEQ
  | .jne _ => .JNE

end Sys2Proof
end

