-- ==== Sys2Proof/WellFormed.lean ====
section
/-! DEFINITION. Well-formed instructions: every register operand names one of the eight registers
(spec/30_encoding.md R53). An immediate is any byte (R54). -/

namespace Sys2Proof

/-- A register operand byte is legal: 0 to 7 (spec/30_encoding.md R53). -/
def regByteOk (b : Byte) : Bool := decide (b.toNat < Config.numRegs)

/-- Every register operand of the instruction is legal. -/
def Instr.wellFormed : Instr → Bool
  | .ldi n _ => regByteOk n
  | .prn n => regByteOk n
  | .hlt => true
  | .add a b => regByteOk a && regByteOk b
  | .mul a b => regByteOk a && regByteOk b
  | .push n => regByteOk n
  | .pop n => regByteOk n
  | .call n => regByteOk n
  | .ret => true
  | .cmp a b => regByteOk a && regByteOk b
  | .jmp n => regByteOk n
  | .jeq n => regByteOk n
  | .jne n => regByteOk n

end Sys2Proof
end

