-- ==== Sys2Proof/Decode.lean ====
section
/-! DEFINITION. The opcode map `OPC`, the decoder (total on any bytes, rejecting by name) and the
encoder (spec/30_encoding.md sections 1 to 5). Decoder and encoder take the opcode map as an argument,
since the spec leaves it open (R55, spec/92_eei_decisions.md D1); `decode` and `encode` are theirs at
the configured map `opc`. -/

namespace Sys2Proof

/-- The configured opcode map: the default values of `OPC` (spec/30_encoding.md R55,
spec/opcode_table.json). PRESUMED, unsafe: the spec itself takes the values from general knowledge
(log entry 1). -/
def opc : Mnemonic → Byte
  | .LDI => 0b10000010#8
  | .PRN => 0b01000111#8
  | .HLT => 0b00000001#8
  | .ADD => 0b10100000#8
  | .MUL => 0b10100010#8
  | .PUSH => 0b01000101#8
  | .POP => 0b01000110#8
  | .CALL => 0b01010000#8
  | .RET => 0b00010001#8
  | .CMP => 0b10100111#8
  | .JMP => 0b01010100#8
  | .JEQ => 0b01010101#8
  | .JNE => 0b01010110#8

/-- All mnemonics, in the table's order: the rows the dispatch table is searched by. -/
def Mnemonic.all : List Mnemonic :=
  [.LDI, .PRN, .HLT, .ADD, .MUL, .PUSH, .POP, .CALL, .RET, .CMP, .JMP, .JEQ, .JNE]

/-- The instruction length in bytes, opcode byte included (spec/30_encoding.md R50). -/
def Mnemonic.length : Mnemonic → Nat
  | .HLT => 1
  | .RET => 1
  | .PRN => 2
  | .PUSH => 2
  | .POP => 2
  | .CALL => 2
  | .JMP => 2
  | .JEQ => 2
  | .JNE => 2
  | .LDI => 3
  | .ADD => 3
  | .MUL => 3
  | .CMP => 3

/-- Why bytes are not an instruction. -/
inductive DecodeError
  /-- There is no opcode byte: the fetch address lies outside memory (spec/40_dispatcher.md R72). -/
  | noOpcode
  /-- The opcode byte is in no row of the map (spec/30_encoding.md R57). -/
  | invalidOpcode (op : Byte)
  /-- The operand byte at this offset lies outside memory (spec/30_encoding.md R60). -/
  | missingOperand (offset : Nat)
  deriving DecidableEq, Repr

/-- The mnemonic whose opcode is this byte, by exact match of all eight bits (spec/30_encoding.md R56). -/
def lookupWith (opc : Mnemonic → Byte) (op : Byte) : Option Mnemonic :=
  Mnemonic.all.find? fun m => opc m == op

/-- Take the operand byte of format R, at offset 1 (spec/30_encoding.md R51). -/
def takeOne (k : Byte → Instr) : List Byte → Except DecodeError (Instr × List Byte)
  | [] => .error (.missingOperand 1)
  | b1 :: rest => .ok (k b1, rest)

/-- Take the operand bytes of formats RR and RI, offset 1 before offset 2 (spec/30_encoding.md R51,
spec/40_dispatcher.md R74). -/
def takeTwo (k : Byte → Byte → Instr) : List Byte → Except DecodeError (Instr × List Byte)
  | [] => .error (.missingOperand 1)
  | [_] => .error (.missingOperand 2)
  | b1 :: b2 :: rest => .ok (k b1 b2, rest)

/-- The operand bytes of a mnemonic, taken from the bytes after the opcode byte. -/
def takeOperands (m : Mnemonic) (rest : List Byte) : Except DecodeError (Instr × List Byte) :=
  match m with
  | .LDI => takeTwo .ldi rest
  | .PRN => takeOne .prn rest
  | .HLT => .ok (.hlt, rest)
  | .ADD => takeTwo .add rest
  | .MUL => takeTwo .mul rest
  | .PUSH => takeOne .push rest
  | .POP => takeOne .pop rest
  | .CALL => takeOne .call rest
  | .RET => .ok (.ret, rest)
  | .CMP => takeTwo .cmp rest
  | .JMP => takeOne .jmp rest
  | .JEQ => takeOne .jeq rest
  | .JNE => takeOne .jne rest

/-- Decode the instruction at the head of a list of bytes, lowest address first, under an opcode map;
the bytes after it are returned (spec/30_encoding.md R56). -/
def decodeWith (opc : Mnemonic → Byte) : List Byte → Except DecodeError (Instr × List Byte)
  | [] => .error .noOpcode
  | op :: rest =>
    match lookupWith opc op with
    | none => .error (.invalidOpcode op)
    | some m => takeOperands m rest

/-- The decoder at the configured opcode map. -/
def decode (bytes : List Byte) : Except DecodeError (Instr × List Byte) := decodeWith opc bytes

/-- The operand bytes of an instruction, offset 1 first (spec/30_encoding.md R51). -/
def Instr.operandBytes : Instr → List Byte
  | .ldi n imm => [n, imm]
  | .prn n => [n]
  | .hlt => []
  | .add a b => [a, b]
  | .mul a b => [a, b]
  | .push n => [n]
  | .pop n => [n]
  | .call n => [n]
  | .ret => []
  | .cmp a b => [a, b]
  | .jmp n => [n]
  | .jeq n => [n]
  | .jne n => [n]

/-- The bytes of an instruction, lowest address first, under an opcode map (spec/30_encoding.md R51). -/
def encodeWith (opc : Mnemonic → Byte) (i : Instr) : List Byte := opc i.mnemonic :: i.operandBytes

/-- The encoder at the configured opcode map. -/
def encode (i : Instr) : List Byte := encodeWith opc i

/-- The bytes, lowest address first, of the longest instruction whose first `nbits` bits are those of
`w` (bit 0 the least significant bit of the first byte) and whose other bits are 0. -/
def tableBytes (nbits w : Nat) : List Byte :=
  let v := w % 2 ^ nbits
  [BitVec.ofNat 8 v, BitVec.ofNat 8 (v / 256), BitVec.ofNat 8 (v / 65536)]

/-- The instruction the decoder reads from a word numbered as spec/opcode_table.json numbers it. -/
def decodeTableWord (nbits w : Nat) : Option Instr :=
  match decode (tableBytes nbits w) with
  | .ok (i, _) => some i
  | .error _ => none

end Sys2Proof
end

