-- ==== Sys2Proof/Machine/State.lean ====
section
/-! DEFINITION. The state of the machine as plain data, the reasons a step can stop, and the state
after reset (spec/10_state.md). -/

namespace Sys2Proof.Machine

/-- A register index: one of the eight registers (spec/10_state.md R11). -/
abbrev Reg := Fin 8

/-- Register 7, the stack pointer (`SP_INDEX`, spec/10_state.md R12). -/
abbrev spReg : Reg := 7

/-- Memory: the cells that do not hold the reset value, addresses strictly rising, all of them below
`memSize` (the form `Memory.wf` states). An unlisted address reads as `Config.memReset`. -/
abbrev Memory := List Host.Cell

/-- The two kinds of index `AddressOutOfRange` reports (spec/60_exceptions.md R133). -/
inductive AccessKind
  | memory
  | register
  deriving DecidableEq, Repr

/-- The operation tag the ALU is invoked with: the two it has, or one it does not recognise
(spec/42_alu.md R90, R96). The code of an unrecognised tag is the model's (log entry 12). -/
inductive AluTag
  | add
  | mul
  | unknown (code : Nat)
  deriving DecidableEq, Repr

/-- The five fatal conditions with the info they record (spec/60_exceptions.md R130 to R135). `pc` is
the address of the opcode byte of the instruction that faulted. -/
inductive Cause
  /-- Raised by the decode of any step. -/
  | invalidOpcode (pc : Nat) (op : Byte)
  /-- Raised by the ALU on a tag it does not have; no instruction can (spec/42_alu.md R96). -/
  | unsupportedAluOperation (tag : AluTag)
  /-- Raised by the opcode fetch, an operand fetch, the register index check, CALL's return address. -/
  | addressOutOfRange (pc : Nat) (kind : AccessKind) (index : Nat)
  /-- Raised by PUSH and CALL. -/
  | stackOverflow (pc : Nat)
  /-- Raised by POP and RET. -/
  | stackUnderflow (pc : Nat)
  deriving DecidableEq, Repr

/-- The run state (spec/10_state.md R20). -/
inductive RunState
  /-- Constructed, not running. -/
  | ready
  /-- The loop is active: the only run state in which a step is taken. -/
  | running
  /-- Terminal: HLT has executed. -/
  | halted
  /-- Terminal: a fatal condition ended the run. -/
  | faulted (c : Cause)
  deriving DecidableEq, Repr

/-- The complete architectural state of one machine instance (spec/10_state.md R10). -/
structure State where
  /-- The 256 memory cells (R22). -/
  mem : Memory
  /-- The eight general registers, register 7 being the stack pointer (R11, R12). -/
  x : Vector Byte 8
  /-- The program counter: a natural number that never wraps (R14). -/
  pc : Nat
  /-- The flags byte (R17). -/
  fl : Byte
  /-- The run state (R20). -/
  run : RunState
  /-- The bytes handed to the output port since reset, oldest first (R21). -/
  out : List Byte
  deriving DecidableEq, Repr

/-- Why no step is taken (spec/40_dispatcher.md R70: "A step happens only in `Running`"). A fatal
condition is none of these: it is a next state whose `run` is `faulted` (spec/60_exceptions.md R137). -/
inductive Fault
  /-- Raised by `step` in `Ready`: the host has not invoked `run`. Safe: the hardware takes no step
  either. -/
  | notStarted
  /-- Raised by `step` in `Halted`, a terminal run state. Safe: the hardware takes no step either. -/
  | alreadyHalted
  /-- Raised by `step` in `Faulted c`, a terminal run state; it reports the cause on record. Safe: the
  hardware takes no step either. -/
  | alreadyFaulted (c : Cause)
  deriving DecidableEq, Repr

/-- What has no meaning in this model. -/
inductive Refusal
  /-- Raised by `exec` for an instruction without a meaning; no arm does. Safe. -/
  | notModelled (mnemonic : String)
  /-- Raised by a host action while `run` is `Running`: the host has no move
  (spec/70_reset_and_hazards.md R168). Unsafe for a platform whose host could act there (log entry
  10). -/
  | hostHasNoMove
  /-- Raised by `load` and `run` in `Halted` and `Faulted` (spec/70_reset_and_hazards.md R164). Safe. -/
  | hostActionNotReady
  /-- Raised by `load` of more than `memSize` bytes (spec/70_reset_and_hazards.md R165). Safe. -/
  | loadTooLong
  deriving DecidableEq, Repr

/-- The outcome of a step, of an instruction or of a host action. -/
abbrev Result := Host.Outcome State Fault Refusal

/-- The machine right after reset (spec/10_state.md R24, spec/70_reset_and_hazards.md R160). -/
def State.reset : State where
  mem := []
  x := #v[0, 0, 0, 0, 0, 0, 0, Config.spReset]
  pc := Config.pcReset
  fl := 0
  run := .ready
  out := []

end Sys2Proof.Machine
end

