-- ==== Sys2Proof/Machine/Ops.lean ====
section
/-! DEFINITION. The named operations over memory, registers, the output port and the run state, the
one shared operation that takes a fault, and the stack discipline (spec/20_memory.md, spec/10_state.md,
spec/43_stack.md, spec/60_exceptions.md). A check answers `Except Cause`: every check of an instruction
stands before its first write, so a raised cause discards nothing (spec/60_exceptions.md R138). -/

namespace Sys2Proof.Machine

/-! ### Memory cells -/

/-- The byte in cell `a`; an unlisted address reads as the reset value. -/
def Memory.read (a : Nat) : Memory → Byte
  | [] => Config.memReset
  | (b, w) :: m => if a = b then w else Memory.read a m

/-- The memory without an entry for `a`. -/
def Memory.erase (a : Nat) : Memory → Memory
  | [] => []
  | (b, w) :: m => if a = b then Memory.erase a m else (b, w) :: Memory.erase a m

/-- Put an entry for `a` before the first higher address. -/
def Memory.insert (a : Nat) (v : Byte) : Memory → Memory
  | [] => [(a, v)]
  | (b, w) :: m => if a < b then (a, v) :: (b, w) :: m else (b, w) :: Memory.insert a v m

/-- Store `v` in cell `a`; storing the reset value leaves the address unlisted. -/
def Memory.write (a : Nat) (v : Byte) (m : Memory) : Memory :=
  if v = Config.memReset then Memory.erase a m else Memory.insert a v (Memory.erase a m)

/-- Every entry is at `lo` or above, strictly rising, below `memSize`, and not the reset value. -/
def Memory.wfFrom (lo : Nat) : Memory → Bool
  | [] => true
  | (a, v) :: m =>
    decide (lo ≤ a) && decide (a < Config.memSize) && decide (v ≠ Config.memReset) && Memory.wfFrom (a + 1) m

/-- The canonical form: equal memories are equal lists. -/
def Memory.wf (m : Memory) : Bool := Memory.wfFrom 0 m

/-- Store bytes at ascending addresses from `a` on, as far as memory reaches. -/
def Memory.fill (a : Nat) : List Byte → Memory → Memory
  | [], m => m
  | v :: vs, m => if a < Config.memSize then Memory.fill (a + 1) vs (Memory.write a v m) else m

/-! ### State updates -/

/-- `x[n]` (spec/10_state.md R11). -/
def State.reg (s : State) (n : Reg) : Byte := s.x.get n

/-- `x[n] <- v`. -/
def State.setReg (s : State) (n : Reg) (v : Byte) : State := { s with x := s.x.set n v }

/-- The stack pointer, register 7 (spec/10_state.md R12). -/
def State.sp (s : State) : Byte := s.reg spReg

/-- `pc <- t`. -/
def State.setPc (s : State) (t : Nat) : State := { s with pc := t }

/-- `pc <- pc + k`, over the natural numbers (spec/10_state.md R15, R16). -/
def State.advance (s : State) (k : Nat) : State := s.setPc (s.pc + k)

/-- `pc <- t` for a byte, absolute (spec/44_control_transfer.md R110). -/
def State.jumpTo (s : State) (t : Byte) : State := s.setPc t.toNat

/-- `fl <- v`, the whole byte (spec/10_state.md R18). -/
def State.setFl (s : State) (v : Byte) : State := { s with fl := v }

/-- `run <- r` (spec/10_state.md R20). -/
def State.setRun (s : State) (r : RunState) : State := { s with run := r }

/-- Replace the memory. -/
def State.setMem (s : State) (m : Memory) : State := { s with mem := m }

/-- `Output(v)`: append one byte to the output port (spec/41_load_print.md R87). -/
def State.emit (s : State) (v : Byte) : State := { s with out := s.out ++ [v] }

/-! ### Taking a fault -/

/-- `raise c`: the run ends in `Faulted c` and nothing else changes; there is no handler, no saved
state and no return (spec/60_exceptions.md R137, R138, R142). -/
def State.raise (s : State) (c : Cause) : State := s.setRun (.faulted c)

/-- Complete an instruction started in `s`: the state its effect gives, or the fault its checks
raised, taken in `s` itself. -/
def commit (s : State) : Except Cause State → Result
  | .ok t => .next t
  | .error c => .next (s.raise c)

/-- The numeric code of a cause (spec/60_exceptions.md R130, spec/92_eei_decisions.md D17). -/
def Cause.code : Cause → Nat
  | .invalidOpcode _ _ => 1
  | .unsupportedAluOperation _ => 2
  | .addressOutOfRange _ _ _ => 3
  | .stackOverflow _ => 4
  | .stackUnderflow _ => 5

/-- Why no step is taken in a run state, if none is (spec/40_dispatcher.md R70, R71). -/
def RunState.stop : RunState → Option Fault
  | .ready => some .notStarted
  | .running => none
  | .halted => some .alreadyHalted
  | .faulted c => some (.alreadyFaulted c)

/-! ### Checked accesses -/

/-- `MemRead(a, 1)` (spec/20_memory.md R31). -/
def memRead (a : Nat) (s : State) : Except Cause Byte :=
  if a < Config.memSize then .ok (Memory.read a s.mem) else .error (.addressOutOfRange s.pc .memory a)

/-- `MemWrite(a, 1, v)` (spec/20_memory.md R32). -/
def memWrite (a : Nat) (v : Byte) (s : State) : Except Cause State :=
  if a < Config.memSize then .ok (s.setMem (Memory.write a v s.mem))
  else .error (.addressOutOfRange s.pc .memory a)

/-! ### The stack discipline (spec/43_stack.md R100, R103) -/

/-- The cell a push or a call stores to: one below the stack pointer (spec/43_stack.md R100). -/
def State.pushSlot (s : State) : Byte := s.sp - 1

/-- `x[7] <- x[7] - 1`, `StackOverflow` where that would pass 0 (spec/43_stack.md R103). -/
def decSp (s : State) : Except Cause State :=
  if s.sp = 0x00#8 then .error (.stackOverflow s.pc) else .ok (s.setReg spReg s.pushSlot)

/-- `x[7] <- x[7] + 1`, `StackUnderflow` where that would pass 0xFF (spec/43_stack.md R103). -/
def incSp (s : State) : Except Cause State :=
  if s.sp = 0xFF#8 then .error (.stackUnderflow s.pc) else .ok (s.setReg spReg (s.sp + 1))

/-- CALL's return address, `pc + 2`, which must be a byte (spec/44_control_transfer.md R111,
spec/92_eei_decisions.md D9). -/
def returnAddress (s : State) : Except Cause Byte :=
  if s.pc + 2 < Config.memSize then .ok (BitVec.ofNat 8 (s.pc + 2))
  else .error (.addressOutOfRange s.pc .memory (s.pc + 2))

end Sys2Proof.Machine
end

