-- ==== Sys2Proof/Machine/Operands.lean ====
section
/-! DEFINITION. Operand forms: the register operand and its range check (spec/30_encoding.md R53). The
other form, LDI's immediate, is the byte itself (R54). -/

namespace Sys2Proof.Machine

/-- `RegIdx(b)`: the register a register operand byte names; a byte of 8 or more raises
`AddressOutOfRange(register)` and is not reduced modulo 8 (spec/30_encoding.md R53). -/
def regIdx (s : State) (b : Byte) : Except Cause Reg :=
  if h : b.toNat < 8 then .ok ⟨b.toNat, h⟩ else .error (.addressOutOfRange s.pc .register b.toNat)

/-- An instruction of format R or RI: its register operand is checked before anything is written. -/
def withReg (s : State) (n : Byte) (effect : Reg → Except Cause State) : Result :=
  commit s (match regIdx s n with
    | .error c => .error c
    | .ok r => effect r)

/-- An instruction of format RR: offset 1 is checked before offset 2 (spec/60_exceptions.md R140). -/
def withRegs (s : State) (a b : Byte) (effect : Reg → Reg → Except Cause State) : Result :=
  withReg s a fun ra =>
    match regIdx s b with
    | .error c => .error c
    | .ok rb => effect ra rb

end Sys2Proof.Machine
end

