-- ==== Sys2Proof/Machine/Flags.lean ====
section
/-! DEFINITION. The flags byte: the three masks, the comparison that sets it and the one test that
reads it (spec/10_state.md R17 to R19, spec/42_alu.md R93). -/

namespace Sys2Proof.Machine

/-- `FL_E` (spec/10_state.md R17, spec/92_eei_decisions.md D2). -/
def flagEqual : Byte := 0x01#8

/-- `FL_L`: 0x02 or 0x04, left open (log entry 2). -/
def flagLess : Byte := if Config.lessIsBit2 then 0x04#8 else 0x02#8

/-- `FL_G`: the other of 0x02 and 0x04, left open (log entry 2). -/
def flagGreater : Byte := if Config.lessIsBit2 then 0x02#8 else 0x04#8

/-- The reading of CMP this hardware has, `CMP_MODE = values` (spec/92_eei_decisions.md D3, log
entry 3). -/
def cmpMode : Config.CmpMode := .values

/-- The two bytes CMP compares: the registers' contents, or the operand bytes in the set-aside mode
(spec/42_alu.md R93, R97). -/
def cmpOperands (mode : Config.CmpMode) (s : State) (a b : Byte) (ra rb : Reg) : Byte × Byte :=
  match mode with
  | .values => (s.reg ra, s.reg rb)
  | .rawOperands => (a, b)

/-- The whole flags byte after comparing two unsigned bytes (spec/42_alu.md R93). -/
def compareFlags (left right : Byte) : Byte :=
  if left = right then flagEqual else if left.toNat < right.toNat then flagLess else flagGreater

/-- The Equal flag is set: `(fl AND FL_E) != 0` (spec/44_control_transfer.md R114). -/
def State.equalSet (s : State) : Bool := decide (s.fl &&& flagEqual ≠ 0x00#8)

/-- The values the flags byte can hold (spec/10_state.md R19). -/
def flagsLegal (fl : Byte) : Bool :=
  decide (fl = 0x00#8) || decide (fl = flagEqual) || decide (fl = flagLess) || decide (fl = flagGreater)

end Sys2Proof.Machine
end

