-- ==== Sys2Proof/Machine/Alu.lean ====
section
/-! DEFINITION. The ALU, ADD, MUL and CMP (spec/42_alu.md). -/

namespace Sys2Proof.Machine

/-- `apply(op, regA, regB)`: the result, formed over the natural numbers and reduced to 8 bits at the
write of `x[regA]`; a tag the ALU does not have is fatal (R90, R94 to R96). -/
def aluApply (tag : AluTag) (a b : Reg) (s : State) : Except Cause State :=
  match tag with
  | .add => .ok (s.setReg a (BitVec.ofNat 8 (((s.reg a).toNat + (s.reg b).toNat) % 256)))
  | .mul => .ok (s.setReg a (BitVec.ofNat 8 (((s.reg a).toNat * (s.reg b).toNat) % 256)))
  | .unknown _ => .error (.unsupportedAluOperation tag)

/-- The handler of an ALU instruction: check both registers, apply, advance by 3 (R91, R92). -/
def execAlu (tag : AluTag) (a b : Byte) (s : State) : Result :=
  withRegs s a b fun ra rb =>
    match aluApply tag ra rb s with
    | .error c => .error c
    | .ok t => .ok (t.advance 3)

/-- ADD, add registers (R91). -/
def execAdd (a b : Byte) (s : State) : Result := execAlu .add a b s

/-- MUL, multiply registers (R92). -/
def execMul (a b : Byte) (s : State) : Result := execAlu .mul a b s

/-- CMP under a reading `mode` (R93, R97). -/
def compareUnder (mode : Config.CmpMode) (a b : Byte) (s : State) : Result :=
  withRegs s a b fun ra rb =>
    .ok ((s.setFl (compareFlags (cmpOperands mode s a b ra rb).1 (cmpOperands mode s a b ra rb).2)).advance 3)

/-- CMP, compare registers (R93). -/
def execCmp (a b : Byte) (s : State) : Result := compareUnder cmpMode a b s

end Sys2Proof.Machine
end

