-- ==== Sys2Proof/Machine/Control.lean ====
section
/-! DEFINITION. HLT (spec/40_dispatcher.md R75) and the control transfers CALL, RET, JMP, JEQ, JNE
(spec/44_control_transfer.md). Every transfer is absolute (R110). -/

namespace Sys2Proof.Machine

/-- HLT, halt: `run <- Halted`, and `pc` is not written (R75, log entry 4). -/
def execHlt (s : State) : Result := .next (s.setRun .halted)

/-- CALL, call subroutine at register: push the return address, then jump to `x[n]`, read after the
decrement (R111). -/
def execCall (n : Byte) (s : State) : Result :=
  withReg s n fun r =>
    match decSp s with
    | .error c => .error c
    | .ok t =>
      match returnAddress s with
      | .error c => .error c
      | .ok ra =>
        match memWrite s.pushSlot.toNat ra t with
        | .error c => .error c
        | .ok u => .ok (u.jumpTo (t.reg r))

/-- RET, return from subroutine: pop the target (R112). -/
def execRet (s : State) : Result :=
  commit s (match memRead s.sp.toNat s with
    | .error c => .error c
    | .ok v =>
      match incSp s with
      | .error c => .error c
      | .ok t => .ok (t.jumpTo v))

/-- JMP, jump to register (R113). -/
def execJmp (n : Byte) (s : State) : Result :=
  withReg s n fun r => .ok (s.jumpTo (s.reg r))

/-- A conditional jump: the operand is checked whether or not the jump is taken (R114, R115,
spec/92_eei_decisions.md D7). -/
def jumpIf (taken : Bool) (n : Byte) (s : State) : Result :=
  withReg s n fun r => .ok (if taken then s.jumpTo (s.reg r) else s.advance 2)

/-- JEQ, jump if equal (R114). -/
def execJeq (n : Byte) (s : State) : Result := jumpIf s.equalSet n s

/-- JNE, jump if not equal (R115). -/
def execJne (n : Byte) (s : State) : Result := jumpIf (!s.equalSet) n s

end Sys2Proof.Machine
end

