-- ==== Sys2Proof/Machine/LoadPrint.lean ====
section
/-! DEFINITION. LDI and PRN (spec/41_load_print.md). -/

namespace Sys2Proof.Machine

/-- LDI, load immediate (R85). -/
def execLdi (n imm : Byte) (s : State) : Result :=
  withReg s n fun r => .ok ((s.setReg r imm).advance 3)

/-- PRN, print register (R86). -/
def execPrn (n : Byte) (s : State) : Result :=
  withReg s n fun r => .ok ((s.emit (s.reg r)).advance 2)

end Sys2Proof.Machine
end

