-- ==== Sys2Proof/Machine/Stack.lean ====
section
/-! DEFINITION. PUSH and POP (spec/43_stack.md). Effects happen in the listed order, so an explicit
register 7 sees the implicit update (R105, log entry 5). -/

namespace Sys2Proof.Machine

/-- PUSH, push register: decrement SP, then store `x[n]`, read after the decrement (R101). -/
def execPush (n : Byte) (s : State) : Result :=
  withReg s n fun r =>
    match decSp s with
    | .error c => .error c
    | .ok t =>
      match memWrite s.pushSlot.toNat (t.reg r) t with
      | .error c => .error c
      | .ok u => .ok (u.advance 2)

/-- POP, pop into register: write `x[n]` with the byte at SP, then increment SP (R102). -/
def execPop (n : Byte) (s : State) : Result :=
  withReg s n fun r =>
    match memRead s.sp.toNat s with
    | .error c => .error c
    | .ok v =>
      match incSp (s.setReg r v) with
      | .error c => .error c
      | .ok t => .ok (t.advance 2)

end Sys2Proof.Machine
end

