-- ==== Sys2Proof/Machine/Dispatch.lean ====
section
/-! DEFINITION. The dispatcher: one arm per instruction (spec/40_dispatcher.md R74). -/

namespace Sys2Proof.Machine

/-- Execute a decoded instruction: the handler of its mnemonic (spec/40_dispatcher.md R74). -/
def exec (i : Instr) (s : State) : Host.Outcome State Fault Refusal :=
  match i with
  | .ldi n imm => Sys2Proof.Machine.execLdi n imm s
  | .prn n => Sys2Proof.Machine.execPrn n s
  | .hlt => Sys2Proof.Machine.execHlt s
  | .add a b => Sys2Proof.Machine.execAdd a b s
  | .mul a b => Sys2Proof.Machine.execMul a b s
  | .push n => Sys2Proof.Machine.execPush n s
  | .pop n => Sys2Proof.Machine.execPop n s
  | .call n => Sys2Proof.Machine.execCall n s
  | .ret => Sys2Proof.Machine.execRet s
  | .cmp a b => Sys2Proof.Machine.execCmp a b s
  | .jmp n => Sys2Proof.Machine.execJmp n s
  | .jeq n => Sys2Proof.Machine.execJeq n s
  | .jne n => Sys2Proof.Machine.execJne n s

end Sys2Proof.Machine
end

