-- ==== Sys2Proof/Machine/Fetch.lean ====
section
/-! DEFINITION. Fetch and decode: the bytes at `pc`, what a failed decode raises, and placing an
instruction where it is fetched next (spec/40_dispatcher.md R72, R73; spec/30_encoding.md R60). -/

namespace Sys2Proof.Machine

/-- The bytes of up to `k` cells from address `a` on, as far as memory reaches; addresses do not wrap
(spec/30_encoding.md R60). -/
def fetchBytes : Nat → Nat → Memory → List Byte
  | 0, _, _ => []
  | k + 1, a, m => if a < Config.memSize then Memory.read a m :: fetchBytes k (a + 1) m else []

/-- The fault a failed fetch or decode at `pc` raises (spec/60_exceptions.md R131, R133). -/
def decodeCause (pc : Nat) : DecodeError → Cause
  | .noOpcode => .addressOutOfRange pc .memory pc
  | .invalidOpcode op => .invalidOpcode pc op
  | .missingOperand offset => .addressOutOfRange pc .memory (pc + offset)

/-- Fetch and decode the instruction at `pc` under an opcode map. A read has no effect
(spec/20_memory.md R35), so the cells of the longest instruction are read at once and the decoder takes
what it needs. -/
def fetchInstrWith (code : Mnemonic → Byte) (s : State) : Except Cause Instr :=
  match decodeWith code (fetchBytes 3 s.pc s.mem) with
  | .ok (i, _) => .ok i
  | .error e => .error (decodeCause s.pc e)

/-- Fetch and decode at the configured opcode map. -/
def fetchInstr (s : State) : Except Cause Instr := fetchInstrWith opc s

/-- `s` running, with these bytes stored where it fetches its next instruction: the host's `load` and
`run` in one (log entry 8). -/
def placeAtPc (bytes : List Byte) (s : State) : State :=
  (s.setMem (Memory.fill s.pc bytes s.mem)).setRun .running

end Sys2Proof.Machine
end

