-- ==== Sys2Proof/Machine/Step.lean ====
section
/-! DEFINITION. One step of the machine (spec/40_dispatcher.md R71). -/

namespace Sys2Proof.Machine

/-- Fetch, decode and execute one instruction under an opcode map, or take the fault the fetch or the
decode raises. A step is taken only in `Running` (R70, R71). The map is an argument, since the spec
leaves it open (spec/00_scope.md R5, spec/30_encoding.md R55); the execution does not depend on it. -/
def stepWith (code : Mnemonic → Byte) (s : State) : Host.Outcome State Fault Refusal :=
  match s.run.stop with
  | some f => .fault f
  | none =>
    match fetchInstrWith code s with
    | .ok i => exec i s
    | .error c => .next (s.raise c)

/-- One step at the configured opcode map (R71). -/
def step (s : State) : Host.Outcome State Fault Refusal := stepWith opc s

/-- `s` with the table's word stored where `step` fetches its next instruction, and running. -/
def State.withFetchWord (s : State) (nbits w : Nat) : State := placeAtPc (tableBytes nbits w) s

end Sys2Proof.Machine
end

