-- ==== Sys2Proof/Machine/Configured.lean ====
section
/-! DEFINITION. The machine for every opcode map: `OPC` is an argument the model takes
(spec/00_scope.md R5, spec/30_encoding.md R55, spec/92_eei_decisions.md D1). `Sys2Proof.core` is this
machine at the configured map. -/

namespace Sys2Proof.Machine

/-- The machine whose dispatch table is built from the map `code`: built once, the same for the whole
run (spec/10_state.md R25). State and reset do not depend on it. -/
def coreWith (code : Mnemonic → Byte) : Host.Core where
  State := State
  Fault := Fault
  Refusal := Refusal
  step := stepWith code
  reset := State.reset

end Sys2Proof.Machine
end

