-- ==== Sys2Proof/Machine/HostPort.lean ====
section
/-! DEFINITION. The host's entry points, `construct`, `load`, `run`, and the read-out of state, each
admitted by the run state (spec/70_reset_and_hazards.md R160, R164 to R169). -/

namespace Sys2Proof.Machine

/-- `construct()`: a fresh machine, from any run state but `Running` (R160, R163, R164, R168). -/
def hostConstruct (s : State) : Result :=
  match s.run with
  | .running => .refused .hostHasNoMove
  | .ready => .next State.reset
  | .halted => .next State.reset
  | .faulted _ => .next State.reset

/-- `load(bytes)`: fill the cells from 0 on, in `Ready` only and at most `memSize` bytes (R165). -/
def hostLoad (bytes : List Byte) (s : State) : Result :=
  match s.run with
  | .running => .refused .hostHasNoMove
  | .halted => .refused .hostActionNotReady
  | .faulted _ => .refused .hostActionNotReady
  | .ready =>
    if bytes.length ≤ Config.memSize then .next (s.setMem (Memory.fill 0 bytes s.mem))
    else .refused .loadTooLong

/-- `run()`: start the loop, in `Ready` only; nothing but `run` changes (R166). The steps that follow
are `step`'s. -/
def hostRun (s : State) : Result :=
  match s.run with
  | .running => .refused .hostHasNoMove
  | .halted => .refused .hostActionNotReady
  | .faulted _ => .refused .hostActionNotReady
  | .ready => .next (s.setRun .running)

/-- What the host can see of a machine (R169). -/
inductive Observation
  /-- In `Running` the host has no move (R168). -/
  | noMove
  /-- In `Ready` and `Halted`: every piece of state. -/
  | whole (s : State)
  /-- In `Faulted`: the cause with its info, and the bytes emitted; the rest is to be discarded
  (spec/60_exceptions.md R139). -/
  | afterFault (c : Cause) (out : List Byte)
  deriving DecidableEq, Repr

/-- Read the state out (R164, R169). -/
def State.observe (s : State) : Observation :=
  match s.run with
  | .ready => .whole s
  | .running => .noMove
  | .halted => .whole s
  | .faulted c => .afterFault c s.out

end Sys2Proof.Machine
end

