-- ==== Sys2Proof/Safety.lean ====
section
/-! DEFINITION. The terms claims are written in: where an instruction lies, which registers it names,
reads and writes, the invariant of reachable states, and how a run ends, if it ends. -/

namespace Sys2Proof.Machine

/-- The operand byte `n` names the register `r` (spec/30_encoding.md R53). -/
def Names (n : Byte) (r : Reg) : Prop := n.toNat = r.val

/-- `s` after the fatal condition `c`: nothing but `run` changed (spec/60_exceptions.md R137, R138). -/
def State.faultedBy (s : State) (c : Cause) : State := { s with run := .faulted c }

/-- The bytes of `i` under the opcode map `code` lie at `pc`, all of them inside memory
(spec/30_encoding.md R51, R60). -/
def State.CodeAtWith (code : Mnemonic → Byte) (s : State) (i : Instr) : Prop :=
  ∀ k b, (encodeWith code i)[k]? = some b → s.pc + k < 256 ∧ Memory.read (s.pc + k) s.mem = b

/-- The bytes of `i` under the configured map lie at `pc`. -/
def State.CodeAt (s : State) (i : Instr) : Prop := s.CodeAtWith opc i

/-- An instruction of mnemonic `m` and length `len` whose opcode byte, under the map `code`, lies inside
memory and whose last operand byte does not: the step faults on the operand fetch, at address 256
(spec/30_encoding.md R60, the operand fetches of the instruction rules). -/
def OperandFetchFaultsWith (code : Mnemonic → Byte) (m : Mnemonic) (len : Nat) : Prop :=
  ∀ s : State, s.run = .running → s.pc < 256 → Memory.read s.pc s.mem = code m → 256 < s.pc + len →
    stepWith code s = .next (s.faultedBy (.addressOutOfRange s.pc .memory 256))

/-- The same under the configured map. -/
def OperandFetchFaults (m : Mnemonic) (len : Nat) : Prop := OperandFetchFaultsWith opc m len

/-- An instruction form with one register operand faults on an operand byte of 8 or more. -/
def RegisterFaults (form : Byte → Instr) : Prop :=
  ∀ (s : State) (n : Byte), 8 ≤ n.toNat →
    exec (form n) s = .next (s.faultedBy (.addressOutOfRange s.pc .register n.toNat))

/-- An instruction form with two register operands faults on an operand byte of 8 or more, and reports
the first of two bad ones. -/
def TwoRegisterFaults (form : Byte → Byte → Instr) : Prop :=
  ∀ (s : State) (a b : Byte),
    (8 ≤ a.toNat → exec (form a b) s = .next (s.faultedBy (.addressOutOfRange s.pc .register a.toNat))) ∧
    (a.toNat < 8 → 8 ≤ b.toNat →
      exec (form a b) s = .next (s.faultedBy (.addressOutOfRange s.pc .register b.toNat)))

/-- The register operand bytes of an instruction, offset 1 first (spec/30_encoding.md R51). -/
def regOperands : Instr → List Byte
  | .ldi n _ => [n]
  | .prn n => [n]
  | .hlt => []
  | .add a b => [a, b]
  | .mul a b => [a, b]
  | .push n => [n]
  | .pop n => [n]
  | .call n => [n]
  | .ret => []
  | .cmp a b => [a, b]
  | .jmp n => [n]
  | .jeq n => [n]
  | .jne n => [n]

/-- The registers an instruction reads, by number; JEQ and JNE read theirs when they jump
(the table of spec/10_state.md R13). -/
def regReads (equal : Bool) : Instr → List Nat
  | .ldi _ _ => []
  | .prn n => [n.toNat]
  | .hlt => []
  | .add a b => [a.toNat, b.toNat]
  | .mul a b => [a.toNat, b.toNat]
  | .push n => [7, n.toNat]
  | .pop _ => [7]
  | .call n => [7, n.toNat]
  | .ret => [7]
  | .cmp a b => [a.toNat, b.toNat]
  | .jmp n => [n.toNat]
  | .jeq n => if equal then [n.toNat] else []
  | .jne n => if equal then [] else [n.toNat]

/-- The registers an instruction writes, by number (the table of spec/10_state.md R13). -/
def regWrites : Instr → List Nat
  | .ldi n _ => [n.toNat]
  | .prn _ => []
  | .hlt => []
  | .add a _ => [a.toNat]
  | .mul a _ => [a.toNat]
  | .push _ => [7]
  | .pop n => [n.toNat, 7]
  | .call _ => [7]
  | .ret => [7]
  | .cmp _ _ => []
  | .jmp _ => []
  | .jeq _ => []
  | .jne _ => []

/-- What holds in every state a run reaches: the memory has its canonical form, `pc` is an address or
256 (spec/10_state.md R14), and the flags byte holds one of its four values (R19). -/
def State.Inv (s : State) : Prop := s.mem.wf = true ∧ s.pc ≤ 256 ∧ flagsLegal s.fl = true

/-- The run of `s` ends normally in `t`: some number of steps leads to `t`, which is `Halted`
(spec/40_dispatcher.md R77). -/
def State.EndsNormally (s t : State) : Prop :=
  ∃ k, Host.Core.run Sys2Proof.core k s = .next t ∧ t.run = .halted

/-- The run of `s` ends with a fatal condition on record (spec/40_dispatcher.md R77). -/
def State.EndsFaulted (s : State) (c : Cause) : Prop :=
  ∃ k t, Host.Core.run Sys2Proof.core k s = .next t ∧ t.run = .faulted c

/-- The run of `s` never ends: after any number of steps it is still `Running`
(spec/40_dispatcher.md R78). -/
def State.NeverEnds (s : State) : Prop :=
  ∀ k, ∃ t, Host.Core.run Sys2Proof.core k s = .next t ∧ t.run = .running

end Sys2Proof.Machine
end

