-- ==== Sys2Proof/Certificates/Slice0/Obligations.lean ====
section
/-! DEFINITION. The statements for the provers. Each docstring names the rule it formalises. A next
state is written as a record over the state before, so that what is not named is unchanged. -/

open Sys2Proof Sys2Proof.Machine

/-! ### Reset and the step -/

/-- R160: reset is construction, it leaves every piece of state at its stated value, and it is the only
way to `Ready`: no step leads back there. (The opcode map is no state: nothing can change it.) -/
def Obligations.ResetLeavesTheStatedValues : Prop :=
  (∀ a, Memory.read a State.reset.mem = 0x00#8) ∧
  (∀ r : Reg, r ≠ 7 → State.reset.reg r = 0x00#8) ∧ State.reset.reg 7 = 0xF4#8 ∧
  State.reset.fl = 0x00#8 ∧ State.reset.pc = 0 ∧ State.reset.run = .ready ∧ State.reset.out = [] ∧
  (∀ s t : State, hostConstruct s = .next t → t = State.reset) ∧
  (∀ s t : State, step s = .next t → t.run ≠ .ready)

/-- When the bytes at `pc` decode, the step is exactly the execution of the decoded instruction; the
step adds nothing around it (spec/40_dispatcher.md R74: "The Dispatcher adds nothing to `pc` itself"). -/
def Obligations.StepRunsTheDecodedInstruction : Prop :=
  ∀ (s : State) (i : Instr) (rest : List Byte), s.run = .running →
    decode (fetchBytes 3 s.pc s.mem) = .ok (i, rest) → step s = exec i s

/-- R71: one step, taken only in `Running`, fetches at `pc` (AddressOutOfRange from 256 on), decodes
(InvalidOpcode where no mnemonic has that byte), and executes the instruction whose bytes lie there. -/
def Obligations.StepFetchesDecodesExecutes : Prop :=
  (∀ s t : State, s.run ≠ .running → step s ≠ .next t) ∧
  (∀ s : State, s.run = .running →
    (256 ≤ s.pc → step s = .next (s.faultedBy (.addressOutOfRange s.pc .memory s.pc))) ∧
    (s.pc < 256 → (∀ m, opc m ≠ Memory.read s.pc s.mem) →
      step s = .next (s.faultedBy (.invalidOpcode s.pc (Memory.read s.pc s.mem)))) ∧
    (∀ i, s.CodeAt i → step s = exec i s))

/-- In `Ready`, `Halted` and `Faulted` there is no step, and the stop names which of them it is. The
names are the model's choice (log entry 7); that there is no step is spec/40_dispatcher.md section 1. -/
def Obligations.NoStepOutsideRunning : Prop :=
  ∀ s : State,
    (s.run = .ready → step s = .fault .notStarted) ∧
    (s.run = .halted → step s = .fault .alreadyHalted) ∧
    (∀ c, s.run = .faulted c → step s = .fault (.alreadyFaulted c))

/-- The only transitions a step makes: it starts in `Running`, and stays there, or halts by HLT, or
ends in a fault. The fourth run state rests on spec/92_eei_decisions.md D11. -/
def Obligations.RunStateTransitions : Prop :=
  ∀ s t : State, step s = .next t →
    s.run = .running ∧
      (t.run = .running ∨ (t.run = .halted ∧ fetchInstr s = .ok .hlt) ∨ ∃ c, t.run = .faulted c)

/-- Nothing that is not a rule of the machine stops it: every instruction answers a next state in every
state, and every step in `Running` does. -/
def Obligations.EveryInstructionAndStepAnswers : Prop :=
  (∀ (i : Instr) (s : State), ∃ t, exec i s = .next t) ∧
  (∀ s : State, s.run = .running → ∃ t, step s = .next t)

/-- R78: a run need not end. JMP to its own address steps forever, and so does every run that never
reaches `Halted` or a fault; there is no step limit. -/
def Obligations.ARunNeedNotEnd : Prop :=
  (∀ (s : State) (n : Byte) (r : Reg), s.run = .running → Names n r → s.CodeAt (.jmp n) →
    (s.reg r).toNat = s.pc → s.NeverEnds) ∧
  (∀ s : State, s.run = .running →
    (∀ k t, Host.Core.run Sys2Proof.core k s = .next t → t.run ≠ .halted ∧ ∀ c, t.run ≠ .faulted c) →
    s.NeverEnds)

/-- How a run ends: it ends normally, or with a fatal condition, or never, and only one of these; where
it ends, the final state or the cause is determined (the spec's own inference in 40_dispatcher.md
section 4, that the machine is deterministic). -/
def Obligations.ARunEndsInExactlyOneWay : Prop :=
  ∀ s : State, s.run = .running →
    ((∃ t, s.EndsNormally t) ∨ (∃ c, s.EndsFaulted c) ∨ s.NeverEnds) ∧
    (∀ t u, s.EndsNormally t → s.EndsNormally u → t = u) ∧
    (∀ c d, s.EndsFaulted c → s.EndsFaulted d → c = d) ∧
    (∀ t c, s.EndsNormally t → ¬ s.EndsFaulted c) ∧
    (s.NeverEnds → (∀ t, ¬ s.EndsNormally t) ∧ ∀ c, ¬ s.EndsFaulted c)

/-! ### Encoding -/

/-- Decoding an encoded instruction gives it back with the bytes that follow, for every instruction,
every operand byte, and every admissible (injective) opcode map. -/
def Obligations.DecodeOfEncodeIsTheInstruction : Prop :=
  ∀ code : Mnemonic → Byte, Function.Injective code →
    ∀ (i : Instr) (rest : List Byte), decodeWith code (encodeWith code i ++ rest) = .ok (i, rest)

/-- Whatever decodes is the encoding of what it decodes to: no bit of an instruction is ignored. -/
def Obligations.EncodeOfDecodeIsTheBytes : Prop :=
  ∀ (code : Mnemonic → Byte) (bytes rest : List Byte) (i : Instr),
    decodeWith code bytes = .ok (i, rest) → encodeWith code i ++ rest = bytes

/-- R71 and the operand fetch for every admissible opcode map: `OPC` is an argument of the step and of the
machine (spec/92_eei_decisions.md D1, log entry 1), what is fetched and decoded follows the map, and what
is executed does not depend on it; the configured machine is the one at `opc`. -/
def Obligations.StepUnderEveryOpcodeMap : Prop :=
  coreWith opc = Sys2Proof.core ∧
  ∀ code : Mnemonic → Byte, Function.Injective code →
    (∀ s t : State, s.run ≠ .running → (coreWith code).step s ≠ .next t) ∧
    (∀ m : Mnemonic, OperandFetchFaultsWith code m m.length) ∧
    (∀ s : State, s.run = .running →
      (256 ≤ s.pc → (coreWith code).step s = .next (s.faultedBy (.addressOutOfRange s.pc .memory s.pc))) ∧
      (s.pc < 256 → (∀ m, code m ≠ Memory.read s.pc s.mem) →
        (coreWith code).step s = .next (s.faultedBy (.invalidOpcode s.pc (Memory.read s.pc s.mem)))) ∧
      (∀ i, s.CodeAtWith code i → (coreWith code).step s = exec i s))

/-- The configured opcode map is admissible, and its values are the defaults of the spec's open
parameter `OPC`, which come from general knowledge (log entry 1, PRESUMED). -/
def Obligations.ConfiguredOpcodeMap : Prop :=
  Function.Injective opc ∧
  Mnemonic.all.map opc =
    [0x82#8, 0x47#8, 0x01#8, 0xA0#8, 0xA2#8, 0x45#8, 0x46#8, 0x50#8, 0x11#8, 0xA7#8, 0x54#8, 0x55#8, 0x56#8]

/-- Words written out from the spec's encodings decode to the instructions they stand for, under the
configured map (log entry 1, PRESUMED opcode values). -/
def Obligations.WrittenOutWordsDecode : Prop :=
  decode [0b10000010#8, 0b00000000#8, 0b00001000#8] = .ok (.ldi 0 8, []) ∧
  decode [0b10100000#8, 0b00000000#8, 0b00000001#8] = .ok (.add 0 1, []) ∧
  decode [0b01000101#8, 0b00000001#8] = .ok (.push 1, []) ∧
  decode [0b01010000#8, 0b00000010#8] = .ok (.call 2, []) ∧
  decode [0b00010001#8] = .ok (.ret, []) ∧ decode [0b00000001#8] = .ok (.hlt, [])

/-- R57: a byte that is no value of `OPC` is invalid, under any map, whatever follows it, and 243 of the
256 bytes are so under every admissible map, the default among them; executing one, under any map,
raises InvalidOpcode with no operand fetched (so also at the end of memory) and no state written. -/
def Obligations.OtherOpcodeBytesAreInvalid : Prop :=
  (∀ (code : Mnemonic → Byte) (op : Byte) (rest : List Byte), (∀ m, code m ≠ op) →
    decodeWith code (op :: rest) = .error (.invalidOpcode op)) ∧
  (∀ code : Mnemonic → Byte, Function.Injective code →
    ((Finset.range 256).filter fun v => Mnemonic.all.all fun m => (code m).toNat != v).card = 243) ∧
  (∀ (code : Mnemonic → Byte) (s : State), s.run = .running → s.pc < 256 →
    (∀ m, code m ≠ Memory.read s.pc s.mem) →
    stepWith code s = .next (s.faultedBy (.invalidOpcode s.pc (Memory.read s.pc s.mem))))

/-- An instruction must lie wholly inside memory (an inference the spec draws in 30_encoding.md section
5): otherwise the operand fetch faults at address 256, whatever the operand bytes; a one-byte
instruction executes at 255. -/
def Obligations.InstructionsLieInsideMemory : Prop :=
  (∀ m : Mnemonic, OperandFetchFaults m m.length) ∧
  (∀ s : State, s.run = .running → s.pc = 255 →
    (Memory.read 255 s.mem = opc .HLT → step s = exec .hlt s) ∧
    (Memory.read 255 s.mem = opc .RET → step s = exec .ret s))

/-! ### LDI and PRN -/

/-- R85: LDI, with its operand fetch, its register check and the source's property that a PRN of the
same register reproduces the immediate. The default opcode byte is left to `ConfiguredOpcodeMap`, here
as for every instruction. -/
def Obligations.LdiLoadsTheImmediate : Prop :=
  (∀ n imm : Byte, encode (.ldi n imm) = [opc .LDI, n, imm]) ∧
  (∀ (s : State) (n imm : Byte) (r : Reg), Names n r →
    exec (.ldi n imm) s = .next { s with x := s.x.set r imm, pc := s.pc + 3 }) ∧
  (∀ imm, RegisterFaults fun n => .ldi n imm) ∧ OperandFetchFaults .LDI 3 ∧
  (∀ (s : State) (n imm : Byte) (r : Reg), Names n r → ∃ t u,
    exec (.ldi n imm) s = .next t ∧ exec (.prn n) t = .next u ∧ u.out = s.out ++ [imm])

/-- R86: PRN, with its operand fetch and its register check. -/
def Obligations.PrnEmitsTheRegister : Prop :=
  (∀ n : Byte, encode (.prn n) = [opc .PRN, n]) ∧
  (∀ (s : State) (n : Byte) (r : Reg), Names n r →
    exec (.prn n) s = .next { s with out := s.out ++ [s.reg r], pc := s.pc + 2 }) ∧
  RegisterFaults .prn ∧ OperandFetchFaults .PRN 2

/-- The output port only grows, by at most one byte a step, which a PRN hands over; no later step
withdraws a byte, not even by a fault. That the port always accepts is spec/92_eei_decisions.md D15
(log entry 11). -/
def Obligations.OutputOnlyGrowsByPrn : Prop :=
  ∀ s t : State, step s = .next t →
    t.out = s.out ∨
    ∃ (n : Byte) (r : Reg), fetchInstr s = .ok (.prn n) ∧ Names n r ∧ t.out = s.out ++ [s.reg r]

/-- Nothing reads the output history from inside the machine: with any bytes emitted earlier, the step
is the same. -/
def Obligations.OutputHistoryIsNotRead : Prop :=
  ∀ (s t : State) (earlier : List Byte), step s = .next t →
    step { s with out := earlier ++ s.out } = .next { t with out := earlier ++ t.out }

/-! ### ADD, MUL, CMP -/

/-- R91: ADD, the low 8 bits of the sum over the natural numbers; no flag. -/
def Obligations.AddIsTheSumModulo256 : Prop :=
  (∀ a b : Byte, encode (.add a b) = [opc .ADD, a, b]) ∧
  (∀ (s : State) (a b v : Byte) (ra rb : Reg), Names a ra → Names b rb →
    v.toNat = ((s.reg ra).toNat + (s.reg rb).toNat) % 256 →
    exec (.add a b) s = .next { s with x := s.x.set ra v, pc := s.pc + 3 }) ∧
  TwoRegisterFaults .add ∧ OperandFetchFaults .ADD 3

/-- R92: MUL, the low 8 bits of the product over the natural numbers; no flag. -/
def Obligations.MulIsTheProductModulo256 : Prop :=
  (∀ a b : Byte, encode (.mul a b) = [opc .MUL, a, b]) ∧
  (∀ (s : State) (a b v : Byte) (ra rb : Reg), Names a ra → Names b rb →
    v.toNat = ((s.reg ra).toNat * (s.reg rb).toNat) % 256 →
    exec (.mul a b) s = .next { s with x := s.x.set ra v, pc := s.pc + 3 }) ∧
  TwoRegisterFaults .mul ∧ OperandFetchFaults .MUL 3

/-- CMP compares the registers' contents as unsigned bytes and replaces the whole flags byte by the one
mask. Value comparison is spec/92_eei_decisions.md D3 (log entry 3); the masks of Less and Greater are
0x02 and 0x04 in an order left open (D2, log entry 2), the mask of Equal is 0x01 (D2). -/
def Obligations.CmpSetsExactlyOneFlag : Prop :=
  (∀ a b : Byte, encode (.cmp a b) = [opc .CMP, a, b]) ∧
  (∀ (s : State) (a b : Byte) (ra rb : Reg), Names a ra → Names b rb →
    ((s.reg ra).toNat = (s.reg rb).toNat →
      exec (.cmp a b) s = .next { s with fl := flagEqual, pc := s.pc + 3 }) ∧
    ((s.reg ra).toNat < (s.reg rb).toNat →
      exec (.cmp a b) s = .next { s with fl := flagLess, pc := s.pc + 3 }) ∧
    ((s.reg rb).toNat < (s.reg ra).toNat →
      exec (.cmp a b) s = .next { s with fl := flagGreater, pc := s.pc + 3 })) ∧
  TwoRegisterFaults .cmp ∧ OperandFetchFaults .CMP 3 ∧
  flagEqual = 0x01#8 ∧
  ((flagLess = 0x02#8 ∧ flagGreater = 0x04#8) ∨ (flagLess = 0x04#8 ∧ flagGreater = 0x02#8))

/-- R97: the set-aside reading of CMP compares the operand bytes, so its outcome is fixed by the program
text and not by what the registers hold; everything else is the same. It is not the reading of this
hardware. -/
def Obligations.RawOperandCompareIsFixedByTheText : Prop :=
  cmpMode = .values ∧
  (∀ (s : State) (a b : Byte) (ra rb : Reg), Names a ra → Names b rb →
    (a.toNat = b.toNat →
      compareUnder .rawOperands a b s = .next { s with fl := flagEqual, pc := s.pc + 3 }) ∧
    (a.toNat < b.toNat →
      compareUnder .rawOperands a b s = .next { s with fl := flagLess, pc := s.pc + 3 }) ∧
    (b.toNat < a.toNat →
      compareUnder .rawOperands a b s = .next { s with fl := flagGreater, pc := s.pc + 3 })) ∧
  (∀ (s : State) (a b : Byte), (8 ≤ a.toNat ∨ 8 ≤ b.toNat) →
    compareUnder .rawOperands a b s = exec (.cmp a b) s)

/-- The ALU raises UnsupportedALUOperation on a tag it does not have, and no step of the machine ever
raises it (an inference the spec draws in 42_alu.md section 3). The unknown tag's code is the model's
(log entry 12). -/
def Obligations.UnsupportedAluOperationIsUnreachable : Prop :=
  (∀ (s : State) (ra rb : Reg) (code : Nat),
    aluApply (.unknown code) ra rb s = .error (.unsupportedAluOperation (.unknown code))) ∧
  (∀ (s t : State) (tag : AluTag), step s = .next t → t.run ≠ .faulted (.unsupportedAluOperation tag))

/-- R18: only CMP writes `fl`, and the whole byte, whatever it held; only JEQ and JNE read it, and only
the Equal flag. -/
def Obligations.OnlyCmpWritesAndOnlyJumpsReadFlags : Prop :=
  (∀ (i : Instr) (s t : State), exec i s = .next t → t.fl ≠ s.fl → ∃ a b, i = .cmp a b) ∧
  (∀ (a b f : Byte) (ra rb : Reg) (s t : State), Names a ra → Names b rb → exec (.cmp a b) s = .next t →
    exec (.cmp a b) { s with fl := f } = .next t) ∧
  (∀ (i : Instr) (s t : State) (f : Byte), (∀ a b, i ≠ .cmp a b) →
    ((∀ n, i ≠ .jeq n ∧ i ≠ .jne n) ∨ (f &&& flagEqual = s.fl &&& flagEqual)) →
    exec i s = .next t → exec i { s with fl := f } = .next { t with fl := f })

/-- No program can tell the Less flag from the Greater flag: two runs that start in states differing
only in `fl`, with the same Equal flag, differ after any number of steps only in `fl`, with the same
Equal flag. This is why spec/92_eei_decisions.md D2 may leave the two masks open. -/
def Obligations.FlagLayoutIsUnobservable : Prop :=
  ∀ (s t : State) (f : Byte) (k : Nat), f &&& flagEqual = s.fl &&& flagEqual →
    Host.Core.run Sys2Proof.core k s = .next t →
    ∃ g : Byte, Host.Core.run Sys2Proof.core k { s with fl := f } = .next { t with fl := g } ∧
      g &&& flagEqual = t.fl &&& flagEqual

/-- Once a compare has set a flag, `fl` is never 0 again (an inference the spec draws in 10_state.md
section 4). -/
def Obligations.FlagsNeverReturnToZero : Prop :=
  ∀ s t : State, s.fl ≠ 0x00#8 → step s = .next t → t.fl ≠ 0x00#8

/-! ### The stack -/

/-- R101: PUSH. The byte stored is read after the decrement. -/
def Obligations.PushDecrementsThenStores : Prop :=
  (∀ n : Byte, encode (.push n) = [opc .PUSH, n]) ∧
  (∀ (s : State) (n : Byte) (r : Reg), Names n r → s.sp ≠ 0x00#8 → ∃ t, exec (.push n) s = .next t ∧
    (t.sp.toNat + 1 = s.sp.toNat) ∧ (∀ q : Reg, q ≠ 7 → t.reg q = s.reg q) ∧
    Memory.read t.sp.toNat t.mem = t.reg r ∧
    (∀ a, a ≠ t.sp.toNat → Memory.read a t.mem = Memory.read a s.mem) ∧
    t.pc = s.pc + 2 ∧ t.fl = s.fl ∧ t.out = s.out ∧ t.run = s.run) ∧
  (∀ (s : State) (n : Byte) (r : Reg), Names n r → s.sp = 0x00#8 →
    exec (.push n) s = .next (s.faultedBy (.stackOverflow s.pc))) ∧
  RegisterFaults .push ∧ OperandFetchFaults .PUSH 2

/-- R102: POP. The register is written before the increment, so `POP R7` increments the popped byte. -/
def Obligations.PopReadsThenIncrements : Prop :=
  (∀ n : Byte, encode (.pop n) = [opc .POP, n]) ∧
  (∀ (s : State) (n : Byte) (r : Reg), Names n r → r ≠ 7 → s.sp ≠ 0xFF#8 →
    exec (.pop n) s = .next { s with
      x := (s.x.set r (Memory.read s.sp.toNat s.mem)).set 7 (s.sp + 1), pc := s.pc + 2 }) ∧
  (∀ (s : State) (n : Byte), Names n 7 → Memory.read s.sp.toNat s.mem ≠ 0xFF#8 →
    exec (.pop n) s = .next { s with x := s.x.set 7 (Memory.read s.sp.toNat s.mem + 1), pc := s.pc + 2 }) ∧
  (∀ (s : State) (n : Byte) (r : Reg), Names n r →
    ((r ≠ 7 ∧ s.sp = 0xFF#8) ∨ (r = 7 ∧ Memory.read s.sp.toNat s.mem = 0xFF#8)) →
    exec (.pop n) s = .next (s.faultedBy (.stackUnderflow s.pc))) ∧
  RegisterFaults .pop ∧ OperandFetchFaults .POP 2 ∧
  (∀ (s : State) (n : Byte) (r : Reg), Names n r → s.sp ≠ 0x00#8 → ∃ t u,
    exec (.push n) s = .next t ∧ exec (.pop n) t = .next u ∧ u.reg r = s.reg r ∧ u.sp = s.sp)

/-- The explicit operand register 7 sees the implicit update: `PUSH R7` stores, and `CALL R7` jumps to,
the decremented stack pointer; `POP R7` leaves the popped byte plus 1. The order is
spec/92_eei_decisions.md D16 (log entry 5). -/
def Obligations.RegisterSevenSeesTheImplicitUpdate : Prop :=
  (∀ (s : State) (n : Byte), Names n 7 → s.sp ≠ 0x00#8 → ∃ t, exec (.push n) s = .next t ∧
    t.sp = s.sp - 1 ∧ Memory.read (s.sp - 1).toNat t.mem = s.sp - 1) ∧
  (∀ (s : State) (n : Byte), Names n 7 → s.sp ≠ 0x00#8 → s.pc + 2 < 256 → ∃ t,
    exec (.call n) s = .next t ∧ t.sp = s.sp - 1 ∧ t.pc = (s.sp - 1).toNat) ∧
  (∀ (s : State) (n : Byte), Names n 7 → Memory.read s.sp.toNat s.mem ≠ 0xFF#8 → ∃ t,
    exec (.pop n) s = .next t ∧ t.sp = Memory.read s.sp.toNat s.mem + 1)

/-- PUSH then POP of the same register restores all eight registers, register 7 as operand included
(an inference the spec draws in 43_stack.md section 3). -/
def Obligations.PushThenPopRestoresEveryRegister : Prop :=
  ∀ (s : State) (n : Byte) (r : Reg), Names n r → s.sp ≠ 0x00#8 → ∃ t u,
    exec (.push n) s = .next t ∧ exec (.pop n) t = .next u ∧ (∀ q : Reg, u.reg q = s.reg q) ∧
      u.pc = s.pc + 4

/-- A store is seen by every later fetch at once: whichever of the next instruction's three cells a PUSH
has written, the fetch gives the pushed byte (spec/92_eei_decisions.md D20). -/
def Obligations.FetchSeesThePushedByte : Prop :=
  ∀ (s : State) (n : Byte) (r : Reg), Names n r → r ≠ 7 → s.sp ≠ 0x00#8 → ∃ t, exec (.push n) s = .next t ∧
    ∀ k, k < 3 → t.pc + k = s.pushSlot.toNat → (fetchBytes 3 t.pc t.mem)[k]? = some (s.reg r)

/-! ### Control transfer and HLT -/

/-- CALL pushes `pc + 2` and jumps to `x[n]`, read after the decrement; a return address that is no byte
is a fault, which is spec/92_eei_decisions.md D9, and the order of its checks D12. -/
def Obligations.CallPushesTheReturnAddress : Prop :=
  (∀ n : Byte, encode (.call n) = [opc .CALL, n]) ∧
  (∀ (s : State) (n : Byte) (r : Reg), Names n r → s.sp ≠ 0x00#8 → s.pc + 2 < 256 → ∃ t,
    exec (.call n) s = .next t ∧
    (t.sp.toNat + 1 = s.sp.toNat) ∧ (∀ q : Reg, q ≠ 7 → t.reg q = s.reg q) ∧
    (Memory.read t.sp.toNat t.mem).toNat = s.pc + 2 ∧
    (∀ a, a ≠ t.sp.toNat → Memory.read a t.mem = Memory.read a s.mem) ∧
    t.pc = (t.reg r).toNat ∧ t.fl = s.fl ∧ t.out = s.out ∧ t.run = s.run) ∧
  (∀ (s : State) (n : Byte) (r : Reg), Names n r → s.sp = 0x00#8 →
    exec (.call n) s = .next (s.faultedBy (.stackOverflow s.pc))) ∧
  (∀ (s : State) (n : Byte) (r : Reg), Names n r → s.sp ≠ 0x00#8 → 256 ≤ s.pc + 2 →
    exec (.call n) s = .next (s.faultedBy (.addressOutOfRange s.pc .memory (s.pc + 2)))) ∧
  RegisterFaults .call ∧ OperandFetchFaults .CALL 2

/-- R112: RET. It pops its target and has no operand byte, so it executes at address 255 too; CALL
followed by RET returns to the instruction after the CALL's operand. -/
def Obligations.RetPopsItsTarget : Prop :=
  encode .ret = [opc .RET] ∧
  (∀ s : State, s.sp ≠ 0xFF#8 →
    exec .ret s = .next { s with x := s.x.set 7 (s.sp + 1), pc := (Memory.read s.sp.toNat s.mem).toNat }) ∧
  (∀ s : State, s.sp = 0xFF#8 → exec .ret s = .next (s.faultedBy (.stackUnderflow s.pc))) ∧
  (∀ s : State, s.run = .running → s.pc ≤ 255 → Memory.read s.pc s.mem = opc .RET → step s = exec .ret s) ∧
  (∀ (s : State) (n : Byte) (r : Reg), Names n r → s.sp ≠ 0x00#8 → s.pc + 2 < 256 → ∃ t u,
    exec (.call n) s = .next t ∧ exec .ret t = .next u ∧ u.pc = s.pc + 2 ∧ ∀ q : Reg, u.reg q = s.reg q)

/-- R113: JMP, with its operand fetch and its register check. -/
def Obligations.JmpJumpsToTheRegister : Prop :=
  (∀ n : Byte, encode (.jmp n) = [opc .JMP, n]) ∧
  (∀ (s : State) (n : Byte) (r : Reg), Names n r →
    exec (.jmp n) s = .next { s with pc := (s.reg r).toNat }) ∧
  RegisterFaults .jmp ∧ OperandFetchFaults .JMP 2

/-- JEQ: taken where the Equal flag (bit 0, spec/92_eei_decisions.md D2) is set. The operand is checked
whether or not the jump is taken, which is D7. -/
def Obligations.JeqJumpsIfEqual : Prop :=
  (∀ n : Byte, encode (.jeq n) = [opc .JEQ, n]) ∧
  (∀ (s : State) (n : Byte) (r : Reg), Names n r →
    (s.fl &&& flagEqual ≠ 0x00#8 → exec (.jeq n) s = .next { s with pc := (s.reg r).toNat }) ∧
    (s.fl &&& flagEqual = 0x00#8 → exec (.jeq n) s = .next { s with pc := s.pc + 2 })) ∧
  RegisterFaults .jeq ∧ OperandFetchFaults .JEQ 2

/-- R115: JNE, taken where the Equal flag is clear. -/
def Obligations.JneJumpsIfNotEqual : Prop :=
  (∀ n : Byte, encode (.jne n) = [opc .JNE, n]) ∧
  (∀ (s : State) (n : Byte) (r : Reg), Names n r →
    (s.fl &&& flagEqual = 0x00#8 → exec (.jne n) s = .next { s with pc := (s.reg r).toNat }) ∧
    (s.fl &&& flagEqual ≠ 0x00#8 → exec (.jne n) s = .next { s with pc := s.pc + 2 })) ∧
  RegisterFaults .jne ∧ OperandFetchFaults .JNE 2

/-- The decision table of the conditional jumps over the four values of `fl`, and that in every state
exactly one of the two is taken (the spec's own inference in 44_control_transfer.md section 3). -/
def Obligations.ConditionalJumpDecisionTable : Prop :=
  ∀ (s : State) (n : Byte) (r : Reg), Names n r →
    ((s.fl = 0x00#8 ∨ s.fl = flagLess ∨ s.fl = flagGreater) →
      exec (.jeq n) s = .next { s with pc := s.pc + 2 } ∧
      exec (.jne n) s = .next { s with pc := (s.reg r).toNat }) ∧
    (s.fl = flagEqual →
      exec (.jeq n) s = .next { s with pc := (s.reg r).toNat } ∧
      exec (.jne n) s = .next { s with pc := s.pc + 2 }) ∧
    ((exec (.jeq n) s = .next { s with pc := (s.reg r).toNat } ∧
        exec (.jne n) s = .next { s with pc := s.pc + 2 }) ∨
      (exec (.jeq n) s = .next { s with pc := s.pc + 2 } ∧
        exec (.jne n) s = .next { s with pc := (s.reg r).toNat }))

/-- HLT ends the run and leaves everything else; `pc` keeps the HLT's address, which is
spec/92_eei_decisions.md D10 (log entry 4). It executes at address 255 too. -/
def Obligations.HltHaltsAndChangesNothingElse : Prop :=
  encode .hlt = [opc .HLT] ∧
  (∀ s : State, exec .hlt s = .next { s with run := .halted }) ∧
  (∀ s : State, s.run = .running → s.pc ≤ 255 → Memory.read s.pc s.mem = opc .HLT →
    step s = .next { s with run := .halted })

/-- The new `pc` of every instruction that completes: the fixed advances equal the instruction's length,
transfers are absolute, HLT leaves it (D10, log entry 4). The advance never wraps (D5). -/
def Obligations.ProgramCounterAfterEachInstruction : Prop :=
  ∀ (i : Instr) (s t : State), exec i s = .next t → (∀ c, t.run ≠ .faulted c) →
    match i with
    | .hlt => t.pc = s.pc
    | .ret => t.pc = (Memory.read s.sp.toNat s.mem).toNat
    | .jmp n => ∃ r, Names n r ∧ t.pc = (s.reg r).toNat
    | .call n => ∃ r, Names n r ∧ t.pc = (t.reg r).toNat
    | .jeq n => ∃ r, Names n r ∧ t.pc = if s.equalSet then (s.reg r).toNat else s.pc + 2
    | .jne n => ∃ r, Names n r ∧ t.pc = if s.equalSet then s.pc + 2 else (s.reg r).toNat
    | .ldi _ _ => t.pc = s.pc + (encode i).length
    | .prn _ => t.pc = s.pc + (encode i).length
    | .add _ _ => t.pc = s.pc + (encode i).length
    | .mul _ _ => t.pc = s.pc + (encode i).length
    | .push _ => t.pc = s.pc + (encode i).length
    | .pop _ => t.pc = s.pc + (encode i).length
    | .cmp _ _ => t.pc = s.pc + (encode i).length

/-! ### Faults -/

/-- Which instruction can raise which cause, and when, for instructions executed in `Running` (an
inference the spec draws in 60_exceptions.md section 1). The causes of the fetch and the decode are
stated with the step. -/
def Obligations.FaultsOfEachInstruction : Prop :=
  ∀ (i : Instr) (s t : State) (c : Cause), s.run = .running → exec i s = .next t → t.run = .faulted c →
    (∃ n ∈ regOperands i, 8 ≤ n.toNat ∧ c = .addressOutOfRange s.pc .register n.toNat) ∨
    (∃ n, (i = .push n ∨ i = .call n) ∧ s.sp = 0x00#8 ∧ c = .stackOverflow s.pc) ∨
    (∃ n, i = .call n ∧ 254 ≤ s.pc ∧ c = .addressOutOfRange s.pc .memory (s.pc + 2)) ∨
    (i = .ret ∧ s.sp = 0xFF#8 ∧ c = .stackUnderflow s.pc) ∨
    (∃ n, i = .pop n ∧ c = .stackUnderflow s.pc ∧
      ((n.toNat ≠ 7 ∧ s.sp = 0xFF#8) ∨ (n.toNat = 7 ∧ Memory.read s.sp.toNat s.mem = 0xFF#8)))

/-- The register check and well-formedness are one thing: executed in `Running`, an instruction ends in
AddressOutOfRange(register) if and only if it is not well-formed. The check is
spec/92_eei_decisions.md D7. -/
def Obligations.IllFormedInstructionsFaultByRegister : Prop :=
  ∀ (i : Instr) (s t : State), s.run = .running → exec i s = .next t →
    (i.wellFormed = false ↔ ∃ index, t.run = .faulted (.addressOutOfRange s.pc .register index))

/-- Where several conditions hold at once, the first in the order fetch, decode, operand fetches,
register operands in order, stack edge, return address is the one reported. The order is
spec/92_eei_decisions.md D12. -/
def Obligations.FaultPriority : Prop :=
  (∀ s : State, s.run = .running → 256 ≤ s.pc →
    step s = .next (s.faultedBy (.addressOutOfRange s.pc .memory s.pc))) ∧
  (∀ s : State, s.run = .running → s.pc < 256 → (∀ m, opc m ≠ Memory.read s.pc s.mem) →
    step s = .next (s.faultedBy (.invalidOpcode s.pc (Memory.read s.pc s.mem)))) ∧
  (∀ m : Mnemonic, OperandFetchFaults m m.length) ∧
  (∀ (i : Instr) (s : State) (n : Byte), (regOperands i).find? (fun b => decide (8 ≤ b.toNat)) = some n →
    exec i s = .next (s.faultedBy (.addressOutOfRange s.pc .register n.toNat))) ∧
  (∀ (s : State) (n : Byte) (r : Reg), Names n r → s.sp = 0x00#8 →
    exec (.call n) s = .next (s.faultedBy (.stackOverflow s.pc)))

/-- A step that ends in a fault changes nothing but `run`: every check stands before the first write.
This precision is the spec's own choice (spec/92_eei_decisions.md D11), not to be relied on by a claim
about a program (log entry 6). -/
def Obligations.FaultsAreTakenBeforeAnyWrite : Prop :=
  ∀ (s t : State) (c : Cause), step s = .next t → t.run = .faulted c → t = s.faultedBy c

/-- In `Faulted` the host sees the cause and the output and nothing else: two machines with the same
cause and output are indistinguishable there. In `Ready` and `Halted` it sees all, in `Running` it has
no move. What the host reads and when is spec/92_eei_decisions.md D22. -/
def Obligations.OnlyCauseAndOutputAreSeenAfterAFault : Prop :=
  (∀ (s t : State) (c : Cause), s.run = .faulted c → t.run = .faulted c → s.out = t.out →
    s.observe = t.observe) ∧
  (∀ (s t : State) (c d : Cause), s.run = .faulted c → t.run = .faulted d → s.observe = t.observe →
    c = d ∧ s.out = t.out) ∧
  (∀ s t : State, (s.run = .ready ∨ s.run = .halted) → s.observe = t.observe → s = t) ∧
  (∀ s : State, s.run = .running → s.observe = .noMove)

/-! ### Frames and whole-machine rules -/

/-- An instruction writes no register but those the table names, and its effect depends on no
register but those the table names: with another value in a register it does not read, every other
register, the memory, `pc`, the flags, the run state and the output come out the same. -/
def Obligations.RegistersReadAndWritten : Prop :=
  (∀ (i : Instr) (s t : State) (r : Reg), exec i s = .next t → r.val ∉ regWrites i → t.reg r = s.reg r) ∧
  (∀ (i : Instr) (s t : State) (r : Reg) (v : Byte), exec i s = .next t → r.val ∉ regReads s.equalSet i →
    ∃ u, exec i { s with x := s.x.set r v } = .next u ∧ (∀ q : Reg, q ≠ r → u.reg q = t.reg q) ∧
      u.mem = t.mem ∧ u.pc = t.pc ∧ u.fl = t.fl ∧ u.run = t.run ∧ u.out = t.out)

/-- Frame of the instructions that write one register: LDI, ADD, MUL. -/
def Obligations.FrameOfRegisterWriters : Prop :=
  ∀ (i : Instr) (d : Byte) (s t : State),
    ((∃ imm, i = .ldi d imm) ∨ (∃ b, i = .add d b) ∨ (∃ b, i = .mul d b)) → exec i s = .next t →
    (∀ r : Reg, r.val ≠ d.toNat → t.reg r = s.reg r) ∧
    (∀ a, Memory.read a t.mem = Memory.read a s.mem) ∧ t.fl = s.fl ∧ t.out = s.out ∧
    (t.run = s.run ∨ ∃ c, t.run = .faulted c)

/-- Frame of the instructions that write no register and store nothing: PRN (the output aside), CMP
(the flags aside), HLT (the run state aside), JMP, JEQ, JNE. -/
def Obligations.FrameOfNonWriters : Prop :=
  ∀ (i : Instr) (s t : State), exec i s = .next t →
    ((∃ n, i = .prn n) ∨ (∃ a b, i = .cmp a b) ∨ i = .hlt ∨ (∃ n, i = .jmp n ∨ i = .jeq n ∨ i = .jne n)) →
    (∀ r : Reg, t.reg r = s.reg r) ∧
    (∀ a, Memory.read a t.mem = Memory.read a s.mem) ∧
    ((∀ a b, i ≠ .cmp a b) → t.fl = s.fl) ∧ ((∀ n, i ≠ .prn n) → t.out = s.out) ∧
    (i ≠ .hlt → t.run = s.run ∨ ∃ c, t.run = .faulted c)

/-- Frame of the storing instructions, PUSH and CALL: only register 7, and only the one cell at the
address the model computes for the push. -/
def Obligations.FrameOfPushAndCall : Prop :=
  ∀ (i : Instr) (n : Byte) (s t : State), (i = .push n ∨ i = .call n) → exec i s = .next t →
    (∀ r : Reg, r ≠ 7 → t.reg r = s.reg r) ∧
    (∀ a, a ≠ s.pushSlot.toNat → Memory.read a t.mem = Memory.read a s.mem) ∧
    t.fl = s.fl ∧ t.out = s.out ∧ (t.run = s.run ∨ ∃ c, t.run = .faulted c)

/-- Frame of POP and RET: only register 7 and POP's destination; a popped cell keeps its value. -/
def Obligations.FrameOfPopAndRet : Prop :=
  (∀ (n : Byte) (s t : State), exec (.pop n) s = .next t →
    (∀ r : Reg, r ≠ 7 → r.val ≠ n.toNat → t.reg r = s.reg r) ∧
    (∀ a, Memory.read a t.mem = Memory.read a s.mem) ∧
    t.fl = s.fl ∧ t.out = s.out ∧ (t.run = s.run ∨ ∃ c, t.run = .faulted c)) ∧
  (∀ s t : State, exec .ret s = .next t →
    (∀ r : Reg, r ≠ 7 → t.reg r = s.reg r) ∧
    (∀ a, Memory.read a t.mem = Memory.read a s.mem) ∧
    t.fl = s.fl ∧ t.out = s.out ∧ (t.run = s.run ∨ ∃ c, t.run = .faulted c))

/-- The stack is the only data memory traffic: a step that changes a cell executes PUSH or CALL, and the
cell is the one below the stack pointer (an inference the spec draws in 20_memory.md section 3). -/
def Obligations.OnlyPushAndCallStore : Prop :=
  ∀ (s t : State) (a : Nat), step s = .next t → Memory.read a t.mem ≠ Memory.read a s.mem →
    a + 1 = s.sp.toNat ∧ ∃ n, fetchInstr s = .ok (.push n) ∨ fetchInstr s = .ok (.call n)

/-- Every step keeps the invariant, under the configured opcode map and under any other: the memory's
canonical form, `pc` at most 256 (the width of `pc` is spec/92_eei_decisions.md D5, log entry 13), and a
legal flags byte. -/
def Obligations.StepKeepsTheInvariant : Prop :=
  (∀ s t : State, s.Inv → step s = .next t → t.Inv) ∧
  (∀ (code : Mnemonic → Byte) (s t : State), s.Inv → stepWith code s = .next t → t.Inv)

/-- The invariant holds at reset, and the host's `load` and `run` keep it. -/
def Obligations.InvariantHoldsAtResetAndAfterLoad : Prop :=
  State.reset.Inv ∧
  (∀ (s t : State) (bytes : List Byte), s.Inv → hostLoad bytes s = .next t → t.Inv) ∧
  (∀ s t : State, s.Inv → hostRun s = .next t → t.Inv)

/-! ### Memory and the host -/

/-- `MemRead` reads the byte in a cell, and faults from address 256 on; the explicit fault is
spec/92_eei_decisions.md D6. -/
def Obligations.MemReadInRangeOrFault : Prop :=
  ∀ (s : State) (a : Nat),
    (a < 256 → memRead a s = .ok (Memory.read a s.mem)) ∧
    (256 ≤ a → memRead a s = .error (.addressOutOfRange s.pc .memory a))

/-- R32: `MemWrite` changes the one cell and nothing else, and from address 256 on faults and writes
nothing. -/
def Obligations.MemWriteChangesOneCell : Prop :=
  ∀ (s : State) (a : Nat) (v : Byte),
    (a < 256 → ∃ t, memWrite a v s = .ok t ∧ Memory.read a t.mem = v ∧
      (∀ b, b ≠ a → Memory.read b t.mem = Memory.read b s.mem) ∧
      t.x = s.x ∧ t.pc = s.pc ∧ t.fl = s.fl ∧ t.run = s.run ∧ t.out = s.out) ∧
    (256 ≤ a → memWrite a v s = .error (.addressOutOfRange s.pc .memory a))

/-- `load` in `Ready` fills the cells from 0 on with at most 256 bytes, the cells beyond keep their
value, nothing else changes; more bytes are refused, which with the rest of the load's terms is
spec/92_eei_decisions.md D14. -/
def Obligations.LoadFillsMemoryFromZero : Prop :=
  ∀ (s : State) (bytes : List Byte), s.run = .ready →
    (bytes.length ≤ 256 → ∃ t, hostLoad bytes s = .next t ∧
      (∀ k b, bytes[k]? = some b → Memory.read k t.mem = b) ∧
      (∀ a, bytes.length ≤ a → Memory.read a t.mem = Memory.read a s.mem) ∧
      t.x = s.x ∧ t.pc = s.pc ∧ t.fl = s.fl ∧ t.run = s.run ∧ t.out = s.out) ∧
    (256 < bytes.length → hostLoad bytes s = .refused .loadTooLong)

/-- R166: `run` in `Ready` sets the run state to `Running` and changes nothing else; from there the
machine takes steps as long as it is `Running`, and none once it is `Halted` or `Faulted`. -/
def Obligations.RunStartsTheLoop : Prop :=
  (∀ s : State, s.run = .ready → hostRun s = .next { s with run := .running }) ∧
  (∀ s : State, s.run = .running → ∃ t, step s = .next t) ∧
  (∀ (s t : State) (c : Cause), (s.run = .halted ∨ s.run = .faulted c) → step s ≠ .next t)

/-- A machine that was never loaded may be run: its first step meets the reset byte 0x00 at cell 0, which
no mnemonic has under the configured map (log entry 1, PRESUMED), and faults (the spec's own inference in
70_reset_and_hazards.md section 3); so it does under every map without 0x00. That first fault is how the
run ends. -/
def Obligations.NeverLoadedMachineFaultsAtOnce : Prop :=
  ∃ s, hostRun State.reset = .next s ∧
    step s = .next (s.faultedBy (.invalidOpcode 0 0x00#8)) ∧
    (∀ code : Mnemonic → Byte, (∀ m, code m ≠ 0x00#8) →
      stepWith code s = .next (s.faultedBy (.invalidOpcode 0 0x00#8))) ∧
    s.EndsFaulted (.invalidOpcode 0 0x00#8) ∧ (∀ c, s.EndsFaulted c → c = .invalidOpcode 0 0x00#8)

/-- What the host may do in which run state: nothing in `Running`, no `load` and no `run` in `Halted`
and `Faulted`. The refusals are spec/92_eei_decisions.md D13 (log entry 9). -/
def Obligations.HostActionsByRunState : Prop :=
  ∀ (s : State) (bytes : List Byte),
    (s.run = .running → hostConstruct s = .refused .hostHasNoMove ∧
      hostLoad bytes s = .refused .hostHasNoMove ∧ hostRun s = .refused .hostHasNoMove) ∧
    (∀ c, (s.run = .halted ∨ s.run = .faulted c) → hostConstruct s = .next State.reset ∧
      hostLoad bytes s = .refused .hostActionNotReady ∧ hostRun s = .refused .hostActionNotReady) ∧
    (s.run = .ready → hostConstruct s = .next State.reset ∧ ∃ t, hostRun s = .next t)
end

