-- ==== Sys2Proof/Laws/State.lean ====
section
/-! SUPPORT. One lemma per field per state update, and what each register update reads as. -/

namespace Sys2Proof.Machine

variable (s : State) (n : Reg) (v : Byte) (k t : Nat) (r : RunState) (m : Memory) (c : Cause)

@[simp] theorem State.setReg_mem : (s.setReg n v).mem = s.mem := rfl
@[simp] theorem State.setReg_x : (s.setReg n v).x = s.x.set n v := rfl
@[simp] theorem State.setReg_pc : (s.setReg n v).pc = s.pc := rfl
@[simp] theorem State.setReg_fl : (s.setReg n v).fl = s.fl := rfl
@[simp] theorem State.setReg_run : (s.setReg n v).run = s.run := rfl
@[simp] theorem State.setReg_out : (s.setReg n v).out = s.out := rfl

@[simp] theorem State.setPc_mem : (s.setPc t).mem = s.mem := rfl
@[simp] theorem State.setPc_x : (s.setPc t).x = s.x := rfl
@[simp] theorem State.setPc_pc : (s.setPc t).pc = t := rfl
@[simp] theorem State.setPc_fl : (s.setPc t).fl = s.fl := rfl
@[simp] theorem State.setPc_run : (s.setPc t).run = s.run := rfl
@[simp] theorem State.setPc_out : (s.setPc t).out = s.out := rfl
@[simp] theorem State.setPc_reg : (s.setPc t).reg n = s.reg n := rfl
@[simp] theorem State.setPc_sp : (s.setPc t).sp = s.sp := rfl
@[simp] theorem State.setPc_pushSlot : (s.setPc t).pushSlot = s.pushSlot := rfl

@[simp] theorem State.advance_mem : (s.advance k).mem = s.mem := rfl
@[simp] theorem State.advance_x : (s.advance k).x = s.x := rfl
@[simp] theorem State.advance_pc : (s.advance k).pc = s.pc + k := rfl
@[simp] theorem State.advance_fl : (s.advance k).fl = s.fl := rfl
@[simp] theorem State.advance_run : (s.advance k).run = s.run := rfl
@[simp] theorem State.advance_out : (s.advance k).out = s.out := rfl
@[simp] theorem State.advance_reg : (s.advance k).reg n = s.reg n := rfl
@[simp] theorem State.advance_sp : (s.advance k).sp = s.sp := rfl
@[simp] theorem State.advance_pushSlot : (s.advance k).pushSlot = s.pushSlot := rfl

@[simp] theorem State.jumpTo_mem : (s.jumpTo v).mem = s.mem := rfl
@[simp] theorem State.jumpTo_x : (s.jumpTo v).x = s.x := rfl
@[simp] theorem State.jumpTo_pc : (s.jumpTo v).pc = v.toNat := rfl
@[simp] theorem State.jumpTo_fl : (s.jumpTo v).fl = s.fl := rfl
@[simp] theorem State.jumpTo_run : (s.jumpTo v).run = s.run := rfl
@[simp] theorem State.jumpTo_out : (s.jumpTo v).out = s.out := rfl
@[simp] theorem State.jumpTo_reg : (s.jumpTo v).reg n = s.reg n := rfl
@[simp] theorem State.jumpTo_sp : (s.jumpTo v).sp = s.sp := rfl
@[simp] theorem State.jumpTo_pushSlot : (s.jumpTo v).pushSlot = s.pushSlot := rfl

@[simp] theorem State.setFl_mem : (s.setFl v).mem = s.mem := rfl
@[simp] theorem State.setFl_x : (s.setFl v).x = s.x := rfl
@[simp] theorem State.setFl_pc : (s.setFl v).pc = s.pc := rfl
@[simp] theorem State.setFl_fl : (s.setFl v).fl = v := rfl
@[simp] theorem State.setFl_run : (s.setFl v).run = s.run := rfl
@[simp] theorem State.setFl_out : (s.setFl v).out = s.out := rfl
@[simp] theorem State.setFl_reg : (s.setFl v).reg n = s.reg n := rfl
@[simp] theorem State.setFl_sp : (s.setFl v).sp = s.sp := rfl
@[simp] theorem State.setFl_pushSlot : (s.setFl v).pushSlot = s.pushSlot := rfl

@[simp] theorem State.setRun_mem : (s.setRun r).mem = s.mem := rfl
@[simp] theorem State.setRun_x : (s.setRun r).x = s.x := rfl
@[simp] theorem State.setRun_pc : (s.setRun r).pc = s.pc := rfl
@[simp] theorem State.setRun_fl : (s.setRun r).fl = s.fl := rfl
@[simp] theorem State.setRun_run : (s.setRun r).run = r := rfl
@[simp] theorem State.setRun_out : (s.setRun r).out = s.out := rfl
@[simp] theorem State.setRun_reg : (s.setRun r).reg n = s.reg n := rfl
@[simp] theorem State.setRun_sp : (s.setRun r).sp = s.sp := rfl
@[simp] theorem State.setRun_pushSlot : (s.setRun r).pushSlot = s.pushSlot := rfl

@[simp] theorem State.setMem_mem : (s.setMem m).mem = m := rfl
@[simp] theorem State.setMem_x : (s.setMem m).x = s.x := rfl
@[simp] theorem State.setMem_pc : (s.setMem m).pc = s.pc := rfl
@[simp] theorem State.setMem_fl : (s.setMem m).fl = s.fl := rfl
@[simp] theorem State.setMem_run : (s.setMem m).run = s.run := rfl
@[simp] theorem State.setMem_out : (s.setMem m).out = s.out := rfl
@[simp] theorem State.setMem_reg : (s.setMem m).reg n = s.reg n := rfl
@[simp] theorem State.setMem_sp : (s.setMem m).sp = s.sp := rfl
@[simp] theorem State.setMem_pushSlot : (s.setMem m).pushSlot = s.pushSlot := rfl

@[simp] theorem State.emit_mem : (s.emit v).mem = s.mem := rfl
@[simp] theorem State.emit_x : (s.emit v).x = s.x := rfl
@[simp] theorem State.emit_pc : (s.emit v).pc = s.pc := rfl
@[simp] theorem State.emit_fl : (s.emit v).fl = s.fl := rfl
@[simp] theorem State.emit_run : (s.emit v).run = s.run := rfl
@[simp] theorem State.emit_out : (s.emit v).out = s.out ++ [v] := rfl
@[simp] theorem State.emit_reg : (s.emit v).reg n = s.reg n := rfl
@[simp] theorem State.emit_sp : (s.emit v).sp = s.sp := rfl
@[simp] theorem State.emit_pushSlot : (s.emit v).pushSlot = s.pushSlot := rfl

@[simp] theorem State.raise_mem : (s.raise c).mem = s.mem := rfl
@[simp] theorem State.raise_x : (s.raise c).x = s.x := rfl
@[simp] theorem State.raise_pc : (s.raise c).pc = s.pc := rfl
@[simp] theorem State.raise_fl : (s.raise c).fl = s.fl := rfl
@[simp] theorem State.raise_run : (s.raise c).run = .faulted c := rfl
@[simp] theorem State.raise_out : (s.raise c).out = s.out := rfl
@[simp] theorem State.raise_reg : (s.raise c).reg n = s.reg n := rfl
@[simp] theorem State.raise_sp : (s.raise c).sp = s.sp := rfl
@[simp] theorem State.raise_pushSlot : (s.raise c).pushSlot = s.pushSlot := rfl

/-- The written register reads as the value written. -/
@[simp] theorem State.reg_setReg_same : (s.setReg n v).reg n = v := by
  simp [State.reg, State.setReg, Vector.get_eq_getElem]

/-- Every other register reads as before. -/
theorem State.reg_setReg_ne {p : Reg} (h : p ≠ n) : (s.setReg n v).reg p = s.reg p := by
  have hv : (n : Nat) ≠ (p : Nat) := fun e => h (Fin.ext e.symm)
  simp [State.reg, State.setReg, Vector.get_eq_getElem, Vector.getElem_set_ne, hv]

/-- A register after a write, in one equation. -/
theorem State.reg_setReg {p : Reg} : (s.setReg n v).reg p = if p = n then v else s.reg p := by
  by_cases h : p = n
  · subst h; simp
  · simp [h, State.reg_setReg_ne]

/-- The stack pointer after a register write. -/
theorem State.sp_setReg : (s.setReg n v).sp = if n = spReg then v else s.sp := by
  simp only [State.sp, State.reg_setReg, eq_comm]

end Sys2Proof.Machine
end

