-- ==== Sys2Proof/Laws/Memory.lean ====
section
/-! SUPPORT. Read after write, and every memory operation keeps the canonical form. -/

namespace Sys2Proof.Machine

theorem Memory.read_erase_same (a : Nat) (m : Memory) : Memory.read a (Memory.erase a m) = Config.memReset := by
  induction m with
  | nil => rfl
  | cons c m ih =>
    by_cases h : a = c.1
    · simpa [Memory.erase, h] using h ▸ ih
    · simpa [Memory.erase, Memory.read, h] using ih

theorem Memory.read_erase_other {a b : Nat} (h : b ≠ a) (m : Memory) :
    Memory.read b (Memory.erase a m) = Memory.read b m := by
  induction m with
  | nil => rfl
  | cons c m ih =>
    by_cases ha : a = c.1
    · have : b ≠ c.1 := ha ▸ h
      simpa [Memory.erase, Memory.read, ← ha, h] using ih
    · simp [Memory.erase, Memory.read, ha, ih]

theorem Memory.read_insert_same (a : Nat) (v : Byte) {m : Memory} (h : ∀ c ∈ m, c.1 ≠ a) :
    Memory.read a (Memory.insert a v m) = v := by
  induction m with
  | nil => simp [Memory.insert, Memory.read]
  | cons c m ih =>
    have hc : a ≠ c.1 := (h c (by simp)).symm
    by_cases hl : a < c.1
    · simp [Memory.insert, Memory.read, hl]
    · simpa [Memory.insert, Memory.read, hl, hc] using ih fun d hd => h d (by simp [hd])

theorem Memory.read_insert_other {a b : Nat} (h : b ≠ a) (v : Byte) (m : Memory) :
    Memory.read b (Memory.insert a v m) = Memory.read b m := by
  induction m with
  | nil => simp [Memory.insert, Memory.read, h]
  | cons c m ih =>
    by_cases hl : a < c.1
    · simp [Memory.insert, Memory.read, hl, h]
    · simp [Memory.insert, Memory.read, hl, ih]

theorem Memory.erase_keys (a : Nat) (m : Memory) : ∀ c ∈ Memory.erase a m, c.1 ≠ a := by
  induction m with
  | nil => simp [Memory.erase]
  | cons d m ih =>
    by_cases h : a = d.1
    · rw [Memory.erase, if_pos h]
      exact ih
    · intro c hc
      simp only [Memory.erase, h, if_false, List.mem_cons] at hc
      rcases hc with rfl | hc
      · exact fun e => h e.symm
      · exact ih c hc

/-- A read of the cell written gives the byte written, in every memory. -/
@[simp] theorem Memory.read_write_same (a : Nat) (v : Byte) (m : Memory) :
    Memory.read a (Memory.write a v m) = v := by
  by_cases h : v = Config.memReset
  · simp [Memory.write, h, Memory.read_erase_same]
  · simp [Memory.write, h, Memory.read_insert_same a v (Memory.erase_keys a m)]

/-- A write leaves every other cell alone, in every memory. -/
theorem Memory.read_write_other {a b : Nat} (h : b ≠ a) (v : Byte) (m : Memory) :
    Memory.read b (Memory.write a v m) = Memory.read b m := by
  by_cases hv : v = Config.memReset
  · simp [Memory.write, hv, Memory.read_erase_other h]
  · simp [Memory.write, hv, Memory.read_insert_other h, Memory.read_erase_other h]

theorem Memory.wfFrom_mono {lo lo' : Nat} (h : lo' ≤ lo) {m : Memory} (hm : Memory.wfFrom lo m = true) :
    Memory.wfFrom lo' m = true := by
  cases m with
  | nil => rfl
  | cons c m =>
    simp only [Memory.wfFrom, Bool.and_eq_true, decide_eq_true_eq] at hm ⊢
    exact ⟨⟨⟨by omega, hm.1.1.2⟩, hm.1.2⟩, hm.2⟩

theorem Memory.wfFrom_erase {lo : Nat} (a : Nat) {m : Memory} (hm : Memory.wfFrom lo m = true) :
    Memory.wfFrom lo (Memory.erase a m) = true := by
  induction m generalizing lo with
  | nil => rfl
  | cons c m ih =>
    have ⟨⟨⟨hlo, hb⟩, hv⟩, htl⟩ : ((lo ≤ c.1 ∧ c.1 < Config.memSize) ∧ c.2 ≠ Config.memReset) ∧
        Memory.wfFrom (c.1 + 1) m = true := by
      simpa [Memory.wfFrom, Bool.and_eq_true] using hm
    by_cases h : a = c.1
    · simpa [Memory.erase, h] using h ▸ Memory.wfFrom_mono (by omega) (ih htl)
    · simp [Memory.erase, h, Memory.wfFrom, hlo, hb, hv, ih htl]

theorem Memory.wfFrom_insert {lo a : Nat} {v : Byte} (hlo : lo ≤ a) (ha : a < Config.memSize)
    (hv : v ≠ Config.memReset) {m : Memory} (hm : Memory.wfFrom lo m = true) (hk : ∀ c ∈ m, c.1 ≠ a) :
    Memory.wfFrom lo (Memory.insert a v m) = true := by
  induction m generalizing lo with
  | nil => simp [Memory.insert, Memory.wfFrom, hlo, ha, hv]
  | cons c m ih =>
    have ⟨⟨⟨hlo', hb⟩, hv'⟩, htl⟩ : ((lo ≤ c.1 ∧ c.1 < Config.memSize) ∧ c.2 ≠ Config.memReset) ∧
        Memory.wfFrom (c.1 + 1) m = true := by
      simpa [Memory.wfFrom, Bool.and_eq_true] using hm
    have hne : c.1 ≠ a := hk c (by simp)
    by_cases hl : a < c.1
    · simp [Memory.insert, Memory.wfFrom, hl, hlo, ha, hv, hb, hv', htl, Nat.succ_le_of_lt hl]
    · simp [Memory.insert, Memory.wfFrom, hl, hlo', hb, hv',
        ih (lo := c.1 + 1) (by omega) htl fun d hd => hk d (by simp [hd])]

/-- A write inside memory keeps the canonical form. -/
theorem Memory.wf_write {a : Nat} (ha : a < Config.memSize) (v : Byte) {m : Memory} (hm : m.wf = true) :
    (Memory.write a v m).wf = true := by
  by_cases h : v = Config.memReset
  · simpa [Memory.write, h, Memory.wf] using Memory.wfFrom_erase a hm
  · simpa [Memory.write, h, Memory.wf] using
      Memory.wfFrom_insert (Nat.zero_le a) ha h (Memory.wfFrom_erase a hm) (Memory.erase_keys a m)

/-- Filling cells keeps the canonical form. -/
theorem Memory.wf_fill (a : Nat) (bytes : List Byte) {m : Memory} (hm : m.wf = true) :
    (Memory.fill a bytes m).wf = true := by
  induction bytes generalizing a m with
  | nil => exact hm
  | cons v vs ih =>
    by_cases h : a < Config.memSize
    · simpa [Memory.fill, h] using ih (a + 1) (Memory.wf_write h v hm)
    · simpa [Memory.fill, h] using hm

/-- The memory after reset has the canonical form. -/
theorem State.reset_mem_wf : State.reset.mem.wf = true := rfl

theorem Memory.read_fill_below {a b : Nat} (h : b < a) (bytes : List Byte) (m : Memory) :
    Memory.read b (Memory.fill a bytes m) = Memory.read b m := by
  induction bytes generalizing a m with
  | nil => rfl
  | cons v vs ih =>
    by_cases hs : a < Config.memSize
    · simp [Memory.fill, hs, ih (show b < a + 1 by omega), Memory.read_write_other (show b ≠ a by omega)]
    · simp [Memory.fill, hs]

/-- What each cell holds after a fill: the byte that fell on it, or what it held before. -/
theorem Memory.read_fill (a b : Nat) (bytes : List Byte) (m : Memory) :
    Memory.read b (Memory.fill a bytes m) =
      if a ≤ b ∧ b < Config.memSize then (bytes[b - a]?).getD (Memory.read b m) else Memory.read b m := by
  induction bytes generalizing a m with
  | nil => simp [Memory.fill]
  | cons v vs ih =>
    by_cases hs : a < Config.memSize
    · rcases Nat.lt_trichotomy b a with h | h | h
      · have : ¬ a ≤ b := by omega
        simp [Memory.read_fill_below h, this]
      · subst h
        simp [Memory.fill, hs, Memory.read_fill_below (Nat.lt_succ_self b)]
      · have e : b - a = (b - (a + 1)) + 1 := by omega
        have hle : a + 1 ≤ b := h
        have hle' : a ≤ b := by omega
        rw [Memory.fill, if_pos hs, ih, Memory.read_write_other (show b ≠ a by omega), e]
        simp [hle, hle']
    · have : ¬ (a ≤ b ∧ b < Config.memSize) := by omega
      simp [Memory.fill, hs, this]

end Sys2Proof.Machine
end

