-- ==== Sys2Proof/Laws/Ops.lean ====
section
/-! SUPPORT. For each shared operation, one lemma that says everything it can do. -/

namespace Sys2Proof.Machine

/-- A completed instruction is the state its effect gave, or the start state with the fault taken. -/
theorem commit_next {s t : State} {e : Except Cause State} (h : commit s e = .next t) :
    e = .ok t ∨ ∃ c, e = .error c ∧ t = s.raise c := by
  cases e with
  | ok u => exact .inl (by simpa [commit] using h)
  | error c => exact .inr ⟨c, rfl, by simpa [commit, eq_comm] using h⟩

/-- Every instruction completed by `commit` answers a next state. -/
theorem commit_completes (s : State) (e : Except Cause State) : ∃ t, commit s e = .next t := by
  cases e <;> exact ⟨_, rfl⟩

theorem memRead_cases (a : Nat) (s : State) :
    (a < Config.memSize ∧ memRead a s = .ok (Memory.read a s.mem)) ∨
    (Config.memSize ≤ a ∧ memRead a s = .error (.addressOutOfRange s.pc .memory a)) := by
  unfold memRead
  split
  · exact .inl ⟨‹_›, rfl⟩
  · exact .inr ⟨by omega, rfl⟩

theorem memWrite_cases (a : Nat) (v : Byte) (s : State) :
    (a < Config.memSize ∧ memWrite a v s = .ok (s.setMem (Memory.write a v s.mem))) ∨
    (Config.memSize ≤ a ∧ memWrite a v s = .error (.addressOutOfRange s.pc .memory a)) := by
  unfold memWrite
  split
  · exact .inl ⟨‹_›, rfl⟩
  · exact .inr ⟨by omega, rfl⟩

theorem byte_lt_memSize (b : Byte) : b.toNat < Config.memSize := b.isLt

/-- A read at a byte address cannot fault. -/
@[simp] theorem memRead_byte (b : Byte) (s : State) : memRead b.toNat s = .ok (Memory.read b.toNat s.mem) :=
  if_pos (byte_lt_memSize b)

/-- A write at a byte address cannot fault. -/
@[simp] theorem memWrite_byte (b v : Byte) (s : State) :
    memWrite b.toNat v s = .ok (s.setMem (Memory.write b.toNat v s.mem)) :=
  if_pos (byte_lt_memSize b)

theorem decSp_cases (s : State) :
    (s.sp = 0x00#8 ∧ decSp s = .error (.stackOverflow s.pc)) ∨
    (s.sp ≠ 0x00#8 ∧ decSp s = .ok (s.setReg spReg s.pushSlot)) := by
  unfold decSp
  split
  · exact .inl ⟨‹_›, rfl⟩
  · exact .inr ⟨‹_›, rfl⟩

theorem incSp_cases (s : State) :
    (s.sp = 0xFF#8 ∧ incSp s = .error (.stackUnderflow s.pc)) ∨
    (s.sp ≠ 0xFF#8 ∧ incSp s = .ok (s.setReg spReg (s.sp + 1))) := by
  unfold incSp
  split
  · exact .inl ⟨‹_›, rfl⟩
  · exact .inr ⟨‹_›, rfl⟩

theorem returnAddress_cases (s : State) :
    (s.pc + 2 < Config.memSize ∧ returnAddress s = .ok (BitVec.ofNat 8 (s.pc + 2))) ∨
    (Config.memSize ≤ s.pc + 2 ∧ returnAddress s = .error (.addressOutOfRange s.pc .memory (s.pc + 2))) := by
  unfold returnAddress
  split
  · exact .inl ⟨‹_›, rfl⟩
  · exact .inr ⟨by omega, rfl⟩

/-- The pushed cell lies one below the stack pointer, where that exists. -/
theorem pushSlot_toNat {s : State} (h : s.sp ≠ 0x00#8) : s.pushSlot.toNat + 1 = s.sp.toNat := by
  have h0 : s.sp.toNat ≠ 0 := fun e => h (by simpa using BitVec.eq_of_toNat_eq (y := 0x00#8) (by simpa using e))
  have hlt := s.sp.isLt
  have h1 : (1 : Byte).toNat = 1 := rfl
  simp only [State.pushSlot, BitVec.toNat_sub, h1]
  omega

theorem regIdx_cases (s : State) (b : Byte) :
    (∃ r : Reg, b.toNat = r.val ∧ regIdx s b = .ok r) ∨
    (8 ≤ b.toNat ∧ regIdx s b = .error (.addressOutOfRange s.pc .register b.toNat)) := by
  unfold regIdx
  split
  · exact .inl ⟨⟨b.toNat, ‹_›⟩, rfl, rfl⟩
  · exact .inr ⟨by omega, rfl⟩

/-- A legal register operand names its register. -/
theorem regIdx_of_eq (s : State) {b : Byte} {r : Reg} (h : b.toNat = r.val) : regIdx s b = .ok r := by
  have hr := r.isLt
  simp only [regIdx, h, hr, dif_pos]

/-- An illegal register operand is out of range. -/
theorem regIdx_of_ge (s : State) {b : Byte} (h : 8 ≤ b.toNat) :
    regIdx s b = .error (.addressOutOfRange s.pc .register b.toNat) := by
  simp [regIdx, Nat.not_lt.mpr h]

theorem withReg_of_eq (s : State) {n : Byte} {r : Reg} (h : n.toNat = r.val) (effect : Reg → Except Cause State) :
    withReg s n effect = commit s (effect r) := by
  simp [withReg, regIdx_of_eq s h]

theorem withReg_of_ge (s : State) {n : Byte} (h : 8 ≤ n.toNat) (effect : Reg → Except Cause State) :
    withReg s n effect = .next (s.raise (.addressOutOfRange s.pc .register n.toNat)) := by
  simp [withReg, regIdx_of_ge s h, commit]

/-- Everything an instruction with one register operand can do. -/
theorem withReg_next {s t : State} {n : Byte} {effect : Reg → Except Cause State}
    (h : withReg s n effect = .next t) :
    (∃ r : Reg, n.toNat = r.val ∧ effect r = .ok t) ∨
    (∃ r : Reg, n.toNat = r.val ∧ ∃ c, effect r = .error c ∧ t = s.raise c) ∨
    (8 ≤ n.toNat ∧ t = s.raise (.addressOutOfRange s.pc .register n.toNat)) := by
  rcases regIdx_cases s n with ⟨r, hr, -⟩ | ⟨hn, -⟩
  · rw [withReg_of_eq s hr] at h
    rcases commit_next h with he | ⟨c, he, rfl⟩
    · exact .inl ⟨r, hr, he⟩
    · exact .inr (.inl ⟨r, hr, c, he, rfl⟩)
  · rw [withReg_of_ge s hn] at h
    exact .inr (.inr ⟨hn, by simpa [eq_comm] using h⟩)

theorem withRegs_of_eq (s : State) {a b : Byte} {ra rb : Reg} (ha : a.toNat = ra.val) (hb : b.toNat = rb.val)
    (effect : Reg → Reg → Except Cause State) : withRegs s a b effect = commit s (effect ra rb) := by
  simp [withRegs, withReg_of_eq s ha, regIdx_of_eq s hb]

theorem withRegs_of_first (s : State) {a b : Byte} (ha : 8 ≤ a.toNat) (effect : Reg → Reg → Except Cause State) :
    withRegs s a b effect = .next (s.raise (.addressOutOfRange s.pc .register a.toNat)) := by
  simp [withRegs, withReg_of_ge s ha]

theorem withRegs_of_second (s : State) {a b : Byte} {ra : Reg} (ha : a.toNat = ra.val) (hb : 8 ≤ b.toNat)
    (effect : Reg → Reg → Except Cause State) :
    withRegs s a b effect = .next (s.raise (.addressOutOfRange s.pc .register b.toNat)) := by
  simp [withRegs, withReg_of_eq s ha, regIdx_of_ge s hb, commit]

/-- Everything an instruction with two register operands can do. -/
theorem withRegs_next {s t : State} {a b : Byte} {effect : Reg → Reg → Except Cause State}
    (h : withRegs s a b effect = .next t) :
    (∃ ra rb : Reg, a.toNat = ra.val ∧ b.toNat = rb.val ∧ effect ra rb = .ok t) ∨
    (∃ ra rb : Reg, a.toNat = ra.val ∧ b.toNat = rb.val ∧ ∃ c, effect ra rb = .error c ∧ t = s.raise c) ∨
    (8 ≤ a.toNat ∧ t = s.raise (.addressOutOfRange s.pc .register a.toNat)) ∨
    (a.toNat < 8 ∧ 8 ≤ b.toNat ∧ t = s.raise (.addressOutOfRange s.pc .register b.toNat)) := by
  rcases regIdx_cases s a with ⟨ra, ha, -⟩ | ⟨ha, -⟩
  · rcases regIdx_cases s b with ⟨rb, hb, -⟩ | ⟨hb, -⟩
    · rw [withRegs_of_eq s ha hb] at h
      rcases commit_next h with he | ⟨c, he, rfl⟩
      · exact .inl ⟨ra, rb, ha, hb, he⟩
      · exact .inr (.inl ⟨ra, rb, ha, hb, c, he, rfl⟩)
    · rw [withRegs_of_second s ha hb] at h
      exact .inr (.inr (.inr ⟨ha ▸ ra.isLt, hb, by simpa [eq_comm] using h⟩))
  · rw [withRegs_of_first s ha] at h
    exact .inr (.inr (.inl ⟨ha, by simpa [eq_comm] using h⟩))

/-- Everything the ALU can do. -/
theorem aluApply_cases (tag : AluTag) (a b : Reg) (s : State) :
    (∃ v, aluApply tag a b s = .ok (s.setReg a v)) ∨
    (∃ code, tag = .unknown code ∧ aluApply tag a b s = .error (.unsupportedAluOperation tag)) := by
  cases tag with
  | add => exact .inl ⟨_, rfl⟩
  | mul => exact .inl ⟨_, rfl⟩
  | unknown code => exact .inr ⟨code, rfl, rfl⟩

/-- An ALU instruction on legal operands: the ALU's result, then the advance. -/
theorem execAlu_of_eq (tag : AluTag) (s : State) {a b : Byte} {ra rb : Reg} (ha : a.toNat = ra.val) (hb : b.toNat = rb.val) :
    execAlu tag a b s = commit s (match aluApply tag ra rb s with
      | .error c => .error c
      | .ok t => .ok (t.advance 3)) :=
  withRegs_of_eq s ha hb _

/-- A compare of legal operands writes the flags byte and advances. -/
theorem compareUnder_of_eq (mode : Config.CmpMode) (s : State) {a b : Byte} {ra rb : Reg}
    (ha : a.toNat = ra.val) (hb : b.toNat = rb.val) :
    compareUnder mode a b s =
      .next ((s.setFl (compareFlags (cmpOperands mode s a b ra rb).1 (cmpOperands mode s a b ra rb).2)).advance 3) :=
  withRegs_of_eq s ha hb _

/-- A conditional jump with a legal operand goes to the register's content or on by 2. -/
theorem jumpIf_of_eq (taken : Bool) (s : State) {n : Byte} {r : Reg} (h : n.toNat = r.val) :
    jumpIf taken n s = .next (if taken then s.jumpTo (s.reg r) else s.advance 2) := by
  rw [jumpIf, withReg_of_eq s h]
  rfl

/-- The two open masks are 0x02 and 0x04, in one order or the other. -/
theorem flags_layout :
    (flagLess = 0x02#8 ∧ flagGreater = 0x04#8) ∨ (flagLess = 0x04#8 ∧ flagGreater = 0x02#8) := by
  unfold flagLess flagGreater
  cases Config.lessIsBit2 <;> simp

/-- A comparison gives one of the three masks. -/
theorem compareFlags_cases (left right : Byte) :
    (left = right ∧ compareFlags left right = flagEqual) ∨
    (left.toNat < right.toNat ∧ compareFlags left right = flagLess) ∨
    (right.toNat < left.toNat ∧ compareFlags left right = flagGreater) := by
  unfold compareFlags
  split
  · exact .inl ⟨‹_›, rfl⟩
  · rename_i hne
    have : left.toNat ≠ right.toNat := fun e => hne (BitVec.eq_of_toNat_eq e)
    split
    · exact .inr (.inl ⟨‹_›, rfl⟩)
    · exact .inr (.inr ⟨by omega, rfl⟩)

/-- The byte at each offset of a fetch. -/
theorem fetchBytes_getElem? (k a j : Nat) (m : Memory) :
    (fetchBytes k a m)[j]? = if j < k ∧ a + j < Config.memSize then some (Memory.read (a + j) m) else none := by
  induction k generalizing a j with
  | zero => simp [fetchBytes]
  | succ k ih =>
    by_cases h : a < Config.memSize
    · cases j with
      | zero => simp [fetchBytes, h]
      | succ j => simp [fetchBytes, h, ih, Nat.add_assoc, Nat.add_comm 1 j]
    · have : ¬ a + j < Config.memSize := by omega
      simp [fetchBytes, h, this]

/-- A fetch from an address outside memory gives nothing. -/
theorem fetchBytes_outside {a : Nat} (h : Config.memSize ≤ a) (k : Nat) (m : Memory) : fetchBytes k a m = [] := by
  cases k with
  | zero => rfl
  | succ k => simp [fetchBytes, Nat.not_lt.mpr h]

/-- A failed fetch or decode raises one of the two causes it has. -/
theorem fetchInstrWith_error {code : Mnemonic → Byte} {s : State} {c : Cause}
    (h : fetchInstrWith code s = .error c) : ∃ e, c = decodeCause s.pc e := by
  unfold fetchInstrWith at h
  split at h
  · cases h
  · exact ⟨_, (Except.error.inj h).symm⟩

/-- A fetch from outside memory raises AddressOutOfRange. -/
theorem fetchInstrWith_outside (code : Mnemonic → Byte) {s : State} (h : Config.memSize ≤ s.pc) :
    fetchInstrWith code s = .error (.addressOutOfRange s.pc .memory s.pc) := by
  simp [fetchInstrWith, fetchBytes_outside h, decodeWith, decodeCause]

theorem fetchInstr_error {s : State} {c : Cause} (h : fetchInstr s = .error c) : ∃ e, c = decodeCause s.pc e :=
  fetchInstrWith_error h

theorem fetchInstr_outside {s : State} (h : Config.memSize ≤ s.pc) :
    fetchInstr s = .error (.addressOutOfRange s.pc .memory s.pc) :=
  fetchInstrWith_outside opc h

/-- What is fetched depends on `pc` and the memory alone. -/
theorem fetchInstrWith_congr (code : Mnemonic → Byte) {s u : State} (hp : u.pc = s.pc) (hm : u.mem = s.mem) :
    fetchInstrWith code u = fetchInstrWith code s := by
  simp [fetchInstrWith, hp, hm]

end Sys2Proof.Machine
end

