-- ==== Sys2Proof/Laws/PerInstr.lean ====
section
/-! SUPPORT. Facts about every instruction as syntax, one lemma per constructor: an encoding is as
long as its format says (spec/30_encoding.md R50). -/

namespace Sys2Proof.Laws.EncodeLength

/-- The encoding of `i`, under any opcode map, has the length of its mnemonic's format. -/
def Statement (i : Instr) : Prop :=
  ∀ code : Mnemonic → Byte, (encodeWith code i).length = i.mnemonic.length

theorem ldi (n imm : Byte) : Statement (.ldi n imm) := fun _ => rfl
theorem prn (n : Byte) : Statement (.prn n) := fun _ => rfl
theorem hlt : Statement .hlt := fun _ => rfl
theorem add (a b : Byte) : Statement (.add a b) := fun _ => rfl
theorem mul (a b : Byte) : Statement (.mul a b) := fun _ => rfl
theorem push (n : Byte) : Statement (.push n) := fun _ => rfl
theorem pop (n : Byte) : Statement (.pop n) := fun _ => rfl
theorem call (n : Byte) : Statement (.call n) := fun _ => rfl
theorem ret : Statement .ret := fun _ => rfl
theorem cmp (a b : Byte) : Statement (.cmp a b) := fun _ => rfl
theorem jmp (n : Byte) : Statement (.jmp n) := fun _ => rfl
theorem jeq (n : Byte) : Statement (.jeq n) := fun _ => rfl
theorem jne (n : Byte) : Statement (.jne n) := fun _ => rfl

end Sys2Proof.Laws.EncodeLength
end

