-- ==== Sys2Proof/Laws/Step.lean ====
section
/-! SUPPORT. What a step can do, said once. -/

namespace Sys2Proof.Machine

theorem stop_eq_none {r : RunState} : r.stop = none ↔ r = .running := by
  cases r <;> simp [RunState.stop]

/-- A step in `Running` executes the fetched instruction. -/
theorem stepWith_of_fetch {code : Mnemonic → Byte} {s : State} {i : Instr} (h : s.run = .running)
    (hf : fetchInstrWith code s = .ok i) : stepWith code s = exec i s := by
  simp [stepWith, stop_eq_none.mpr h, hf]

/-- A step in `Running` takes the fault of a failed fetch or decode. -/
theorem stepWith_of_fetch_error {code : Mnemonic → Byte} {s : State} {c : Cause} (h : s.run = .running)
    (hf : fetchInstrWith code s = .error c) : stepWith code s = .next (s.raise c) := by
  simp [stepWith, stop_eq_none.mpr h, hf]

/-- Everything a step that answers a next state can be, under any opcode map. -/
theorem stepWith_next {code : Mnemonic → Byte} {s t : State} (h : stepWith code s = .next t) :
    s.run = .running ∧
      ((∃ i, fetchInstrWith code s = .ok i ∧ exec i s = .next t) ∨
        (∃ c, fetchInstrWith code s = .error c ∧ t = s.raise c)) := by
  cases hr : s.run.stop with
  | some f => simp [stepWith, hr] at h
  | none =>
    have hrun := stop_eq_none.mp hr
    refine ⟨hrun, ?_⟩
    cases hf : fetchInstrWith code s with
    | ok i => rw [stepWith_of_fetch hrun hf] at h; exact .inl ⟨i, rfl, h⟩
    | error c => rw [stepWith_of_fetch_error hrun hf] at h; exact .inr ⟨c, rfl, by simpa [eq_comm] using h⟩

/-- The step at the configured map, in `Running`. -/
theorem step_running {s : State} (h : s.run = .running) :
    step s = match fetchInstr s with
      | .ok i => exec i s
      | .error c => .next (s.raise c) := by
  cases hf : fetchInstr s with
  | ok i => exact stepWith_of_fetch h hf
  | error c => exact stepWith_of_fetch_error h hf

/-- Everything a step at the configured map that answers a next state can be. -/
theorem step_next {s t : State} (h : step s = .next t) :
    s.run = .running ∧
      ((∃ i, fetchInstr s = .ok i ∧ exec i s = .next t) ∨ (∃ c, fetchInstr s = .error c ∧ t = s.raise c)) :=
  stepWith_next h

end Sys2Proof.Machine
end

