-- ==== Sys2Proof/Tests/Slice0.lean ====
section
/-! SUPPORT. Small tests, each about one step or one decoding. Expected results are the spec's own
vectors (spec/95_test_vectors.md, named in each comment) or written out from its encoding tables. The
second part shows, for each statement with hypotheses, a state and operands that meet them. -/

namespace Sys2Proof.Tests

open Sys2Proof.Machine

/-- A running machine with these bytes at `pc`, all else as after reset. -/
def placed (pc : Nat) (bytes : List Byte) : State := placeAtPc bytes { State.reset with pc := pc }

/-- What `f` reads from the state after one step. -/
def after {α : Type} (s : State) (f : State → α) : Option α :=
  match step s with
  | .next t => some (f t)
  | .fault _ => none
  | .refused _ => none

/-! ### Decoding: one word per constructor, written out from spec/30_encoding.md R51 and R55 -/

theorem test_decode_ldi : decode [0b10000010#8, 0b00000111#8, 0b11111111#8] = .ok (.ldi 7 255, []) := by decide
theorem test_decode_prn : decode [0b01000111#8, 0b00000101#8] = .ok (.prn 5, []) := by decide
theorem test_decode_hlt : decode [0b00000001#8, 0b00001001#8] = .ok (.hlt, [9]) := by decide
theorem test_decode_add : decode [0b10100000#8, 0b00000010#8, 0b00000011#8] = .ok (.add 2 3, []) := by decide
theorem test_decode_mul : decode [0b10100010#8, 0b00000110#8, 0b00000001#8] = .ok (.mul 6 1, []) := by decide
theorem test_decode_push : decode [0b01000101#8, 0b00000001#8] = .ok (.push 1, []) := by decide
theorem test_decode_pop : decode [0b01000110#8, 0b00000010#8] = .ok (.pop 2, []) := by decide
theorem test_decode_call : decode [0b01010000#8, 0b00000100#8] = .ok (.call 4, []) := by decide
theorem test_decode_ret : decode [0b00010001#8] = .ok (.ret, []) := by decide
theorem test_decode_cmp : decode [0b10100111#8, 0b00000000#8, 0b00000111#8] = .ok (.cmp 0 7, []) := by decide
theorem test_decode_jmp : decode [0b01010100#8, 0b00000011#8] = .ok (.jmp 3, []) := by decide
theorem test_decode_jeq : decode [0b01010101#8, 0b00000100#8] = .ok (.jeq 4, []) := by decide
theorem test_decode_jne : decode [0b01010110#8, 0b00000011#8] = .ok (.jne 3, []) := by decide
/-- F5: one bit away from LDI; all eight bits are matched. -/
theorem test_decode_invalid : decode [0x83#8, 0, 1] = .error (.invalidOpcode 0x83#8) := by decide
theorem test_decode_short : decode [0x82#8, 0] = .error (.missingOperand 2) := by decide
/-- `A0 00 01` numbered as the table numbers it, and the same with the operand bits left out. -/
theorem test_table_word : decodeTableWord 24 0x0100A0 = some (.add 0 1) ∧ decodeTableWord 8 0xA0 = some (.add 0 0) := by decide
theorem test_fetch_word : after (State.reset.withFetchWord 24 0x080082) (fun t => (t.reg 0, t.pc)) = some (8, 3) := by decide

/-! ### Well-formedness: one ill-formed term for each check -/

theorem test_wf_accepts : (Instr.ldi 7 255).wellFormed = true ∧ (Instr.add 7 0).wellFormed = true := by decide
theorem test_wf_ldi : (Instr.ldi 8 0).wellFormed = false := by decide
theorem test_wf_prn : (Instr.prn 8).wellFormed = false := by decide
theorem test_wf_add : (Instr.add 8 0).wellFormed = false ∧ (Instr.add 0 8).wellFormed = false := by decide
theorem test_wf_mul : (Instr.mul 8 0).wellFormed = false ∧ (Instr.mul 0 8).wellFormed = false := by decide
theorem test_wf_push : (Instr.push 8).wellFormed = false := by decide
theorem test_wf_pop : (Instr.pop 255).wellFormed = false := by decide
theorem test_wf_call : (Instr.call 8).wellFormed = false := by decide
theorem test_wf_cmp : (Instr.cmp 8 0).wellFormed = false ∧ (Instr.cmp 0 8).wellFormed = false := by decide
theorem test_wf_jmp : (Instr.jmp 8).wellFormed = false := by decide
theorem test_wf_jeq : (Instr.jeq 128).wellFormed = false := by decide
theorem test_wf_jne : (Instr.jne 8).wellFormed = false := by decide

/-! ### One step of each instruction -/

/-- L5. -/
theorem test_ldi : after (placed 253 [0x82#8, 0x00#8, 0x09#8]) (fun t => (t.reg 0, t.pc)) = some (9, 256) := by decide
/-- L4. -/
theorem test_ldi_fault : after (placed 0 [0x82#8, 0x08#8, 0x01#8]) (fun t => (t.run, t.reg 0)) =
    some (.faulted (.addressOutOfRange 0 .register 8), 0) := by decide
/-- L8. -/
theorem test_prn : after (placed 0 [0x47#8, 0x07#8]) (fun t => (t.out, t.pc)) = some ([244], 2) := by decide
/-- L9. -/
theorem test_prn_fault : after (placed 255 [0x47#8]) (fun t => (t.run, t.out)) =
    some (.faulted (.addressOutOfRange 255 .memory 256), []) := by decide
/-- H2. -/
theorem test_hlt : after (placed 255 [0x01#8]) (fun t => (t.run, t.pc)) = some (.halted, 255) := by decide
/-- A1: arithmetic on the stack pointer. -/
theorem test_add : after ((placed 0 [0xA0#8, 0x07#8, 0x00#8]).setReg 0 0x10) (fun t => (t.reg 7, t.reg 0, t.pc)) =
    some (0x04, 0x10, 3) := by decide
/-- Table "Same register twice": `ADD R0 R0` of 0x81. -/
theorem test_add_same : after ((placed 0 [0xA0#8, 0x00#8, 0x00#8]).setReg 0 0x81) (·.reg 0) = some 0x02 := by decide
/-- Table A-MUL: 255 * 255. -/
theorem test_mul : after (((placed 0 [0xA2#8, 0x00#8, 0x01#8]).setReg 0 255).setReg 1 255) (fun t => (t.reg 0, t.reg 1, t.fl)) =
    some (1, 255, 0) := by decide
/-- A4. -/
theorem test_mul_fault : after (placed 254 [0xA2#8, 0x00#8]) (·.run) =
    some (.faulted (.addressOutOfRange 254 .memory 256)) := by decide
/-- Table A-CMP: the comparison is unsigned, 128 against 127; the stale flag goes. -/
theorem test_cmp_unsigned : after (((placed 0 [0xA7#8, 0x00#8, 0x01#8]).setReg 0 128).setReg 1 127) (fun t => (t.fl, t.pc)) =
    some (flagGreater, 3) := rfl
/-- A6, with a stale Greater before. -/
theorem test_cmp_equal : after (((placed 0 [0xA7#8, 0x00#8, 0x07#8]).setReg 0 0xF4).setFl 0x04) (·.fl) = some 0x01 := by decide
/-- S4: the last push that can succeed. -/
theorem test_push : after (((placed 0x20 [0x45#8, 0x01#8]).setReg 1 0xAB).setReg 7 0x01)
    (fun t => (t.sp, Memory.read 0 t.mem, t.reg 1, t.pc)) = some (0, 0xAB, 0xAB, 0x22) := by decide
/-- S6: `PUSH R7` stores the decremented value. -/
theorem test_push_sp : after (placed 0x20 [0x45#8, 0x07#8]) (fun t => (t.sp, Memory.read 0xF3 t.mem)) =
    some (0xF3, 0xF3) := by decide
/-- S13: the last pop that can succeed. -/
theorem test_pop : after (((placed 0x20 [0x46#8, 0x02#8]).setReg 7 0xFE).setMem [(0x20, 0x46), (0x21, 0x02), (0xFE, 0x33)])
    (fun t => (t.reg 2, t.sp, t.pc)) = some (0x33, 0xFF, 0x22) := by decide
/-- S9: `POP R7` of 0xFF. -/
theorem test_pop_sp : after (((placed 0x20 [0x46#8, 0x07#8]).setReg 7 0xF3).setMem [(0x20, 0x46), (0x21, 0x07), (0xF3, 0xFF)])
    (fun t => (t.run, t.sp)) = some (.faulted (.stackUnderflow 0x20), 0xF3) := by decide
/-- T3: the last CALL that can succeed. -/
theorem test_call : after ((placed 253 [0x50#8, 0x02#8]).setReg 2 0x40) (fun t => (t.sp, Memory.read 0xF3 t.mem, t.pc)) =
    some (0xF3, 0xFF, 0x40) := by decide
/-- T7: `CALL R7` jumps to the decremented stack pointer. -/
theorem test_call_sp : after (placed 0x10 [0x50#8, 0x07#8]) (fun t => (t.sp, Memory.read 0xF3 t.mem, t.pc)) =
    some (0xF3, 0x12, 0xF3) := by decide
/-- T10: a one-byte instruction at the last address. -/
theorem test_ret : after (((placed 255 [0x11#8]).setReg 7 0xF3).setMem [(0xF3, 0x44), (255, 0x11)]) (fun t => (t.sp, t.pc)) =
    some (0xF4, 0x44) := by decide
/-- T8. -/
theorem test_ret_fault : after ((placed 0x10 [0x11#8]).setReg 7 0xFF) (·.run) = some (.faulted (.stackUnderflow 0x10)) := by decide
/-- T13. -/
theorem test_jmp : after (placed 0x30 [0x54#8, 0x07#8]) (fun t => (t.pc, t.run)) = some (0xF4, .running) := by decide
/-- T14. -/
theorem test_jmp_fault : after (placed 0x30 [0x54#8, 0x08#8]) (·.run) =
    some (.faulted (.addressOutOfRange 0x30 .register 8)) := by decide
/-- T15, Equal set. -/
theorem test_jeq : after (((placed 0x12 [0x55#8, 0x04#8]).setReg 4 0x17).setFl 0x01) (·.pc) = some 0x17 := by decide
/-- T17: the operand is checked when the jump is not taken. -/
theorem test_jeq_fault : after ((placed 0x12 [0x55#8, 0x08#8]).setFl 0x02) (·.run) =
    some (.faulted (.addressOutOfRange 0x12 .register 8)) := by decide
/-- T16, no CMP yet. -/
theorem test_jne : after ((placed 0x12 [0x56#8, 0x04#8]).setReg 4 0x17) (·.pc) = some 0x17 := by decide
/-- T18: not taken at 254. -/
theorem test_jne_not : after (((placed 254 [0x56#8, 0x04#8]).setReg 4 0x17).setFl 0x01) (·.pc) = some 256 := by decide

/-! ### Fetch, decode, priority and the host -/

/-- F1: byte 0x00 is no no-op. -/
theorem test_zero_invalid : after (placed 0 []) (·.run) = some (.faulted (.invalidOpcode 0 0x00)) := by decide
/-- The codes of spec/92_eei_decisions.md D17. -/
theorem test_codes : [Cause.invalidOpcode 0 0, .unsupportedAluOperation .add, .addressOutOfRange 0 .memory 256,
    .stackOverflow 0, .stackUnderflow 0].map Cause.code = [1, 2, 3, 4, 5] := by decide
/-- F4. -/
theorem test_fetch_outside : after (placed 256 []) (·.run) = some (.faulted (.addressOutOfRange 256 .memory 256)) := by decide
/-- Q1. -/
theorem test_priority_decode : after (placed 254 [0xFF#8]) (·.run) = some (.faulted (.invalidOpcode 254 0xFF)) := by decide
/-- Q2. -/
theorem test_priority_fetch : after (placed 254 [0x82#8, 0x09#8]) (·.run) =
    some (.faulted (.addressOutOfRange 254 .memory 256)) := by decide
/-- Q3. -/
theorem test_priority_register : after ((placed 0x20 [0x45#8, 0x08#8]).setReg 7 0) (·.run) =
    some (.faulted (.addressOutOfRange 0x20 .register 8)) := by decide
/-- Q4. -/
theorem test_priority_stack : after ((placed 254 [0x50#8, 0x02#8]).setReg 7 0) (·.run) =
    some (.faulted (.stackOverflow 254)) := by decide
/-- Q5. -/
theorem test_priority_first : after (placed 0 [0xA0#8, 0x08#8, 0x09#8]) (·.run) =
    some (.faulted (.addressOutOfRange 0 .register 8)) := by decide
/-- P6, step 3: the PUSH at 0x06 overwrites the opcode fetched next. -/
theorem test_self_modifying : after (((placed 0x06 [0x45#8, 0x00#8, 0x47#8]).setReg 7 9).setReg 0 1)
    (fun t => (t.pc, fetchInstr t)) = some (0x08, .ok .hlt) := by decide
/-- G6: the second load overwrites cells 0 and 1 only. -/
theorem test_load_twice : hostLoad [0x47#8, 0x00#8] (State.reset.setMem (Memory.fill 0 [0x82#8, 0x00#8, 0x08#8, 0x01#8] [])) =
    .next (State.reset.setMem [(0, 0x47), (2, 0x08), (3, 0x01)]) := by rfl
/-- G4. -/
theorem test_load_too_long (bytes : List Byte) (h : bytes.length = 257) : hostLoad bytes State.reset = .refused .loadTooLong :=
  if_neg (by rw [h]; decide)
/-- G5. -/
theorem test_run_again : hostRun (State.reset.setRun .halted) = .refused .hostActionNotReady := rfl
/-- G1, in `Ready` and after a fault. -/
theorem test_observe : State.reset.observe = .whole State.reset ∧
    (State.reset.raise (.stackOverflow 5)).observe = .afterFault (.stackOverflow 5) [] := by decide

/-! ### Witnesses: the hypotheses of the statements can be met, each clause at a boundary -/

/-- `HLT` at the last address. -/
def hltAtEnd : State := placed 255 [0x01#8]

/-- Where an instruction of given bytes lies in a concrete state. -/
theorem codeAtWith_of_fetch {code : Mnemonic → Byte} {s : State} {i : Instr}
    (hf : (fetchBytes 3 s.pc s.mem).take (encodeWith code i).length = encodeWith code i) : s.CodeAtWith code i := by
  intro k b hk
  have hlt : k < (encodeWith code i).length := (List.getElem?_eq_some_iff.mp hk).1
  rw [← hf, List.getElem?_take, if_pos hlt, fetchBytes_getElem?] at hk
  split at hk
  · rename_i hr
    exact ⟨hr.2, Option.some.inj hk⟩
  · exact absurd hk (by simp)

theorem witness_reset : hostConstruct State.reset = .next State.reset ∧ step hltAtEnd = .next (hltAtEnd.setRun .halted) := ⟨rfl, rfl⟩

theorem witness_decoded : (placed 0 [0x82#8, 0x00#8, 0x08#8]).run = .running ∧
    decode (fetchBytes 3 (placed 0 [0x82#8, 0x00#8, 0x08#8]).pc (placed 0 [0x82#8, 0x00#8, 0x08#8]).mem) = .ok (.ldi 0 8, []) := by decide

/-- No mnemonic has the opcode byte 0x00, nor 0xFF. -/
theorem no_opcode_zero (m : Mnemonic) : opc m ≠ 0x00#8 ∧ opc m ≠ 0xFF#8 := by cases m <;> decide

theorem witness_fetch_decode_execute : State.reset.run ≠ .running ∧
    ((placed 256 []).run = .running ∧ 256 ≤ (placed 256 []).pc) ∧
    ((placed 255 [0xFF#8]).run = .running ∧ (placed 255 [0xFF#8]).pc < 256 ∧ ∀ m, opc m ≠ Memory.read 255 (placed 255 [0xFF#8]).mem) ∧
    (hltAtEnd.run = .running ∧ hltAtEnd.CodeAt .hlt) :=
  ⟨by decide, by decide, ⟨rfl, by decide, fun m => (no_opcode_zero m).2⟩, rfl, codeAtWith_of_fetch (by decide)⟩

theorem witness_not_running : State.reset.run = .ready ∧ (State.reset.setRun .halted).run = .halted ∧
    (State.reset.raise (.stackOverflow 0)).run = .faulted (.stackOverflow 0) := by decide

/-- Each way a step can end. -/
theorem witness_transitions : step (placed 0x30 [0x54#8, 0x07#8]) = .next ((placed 0x30 [0x54#8, 0x07#8]).setPc 0xF4) ∧
    step hltAtEnd = .next (hltAtEnd.setRun .halted) ∧
    step (placed 0 []) = .next ((placed 0 []).raise (.invalidOpcode 0 0)) := ⟨rfl, rfl, rfl⟩

/-- T12: `JMP R4` to its own address. -/
def jmpSelf : State := (placed 0x30 [0x54#8, 0x04#8]).setReg 4 0x30

theorem jmpSelf_run (k : Nat) : Host.Core.run core k jmpSelf = .next jmpSelf := by
  induction k with
  | zero => rfl
  | succ k ih =>
    have h : core.step jmpSelf = .next jmpSelf := rfl
    simpa [Host.Core.run, h] using ih

theorem witness_need_not_end : (jmpSelf.run = .running ∧ Names 4 4 ∧ jmpSelf.CodeAt (.jmp 4) ∧ (jmpSelf.reg 4).toNat = jmpSelf.pc) ∧
    ∀ k t, Host.Core.run core k jmpSelf = .next t → t.run ≠ .halted ∧ ∀ c, t.run ≠ .faulted c := by
  refine ⟨⟨rfl, rfl, codeAtWith_of_fetch (by decide), by decide⟩, fun k t h => ?_⟩
  rw [jmpSelf_run k] at h
  cases h
  exact ⟨by decide, fun c => by simp [jmpSelf, placed, placeAtPc]⟩

/-- A run of each of the three kinds. -/
theorem witness_run_ends : (hltAtEnd.run = .running ∧ hltAtEnd.EndsNormally (hltAtEnd.setRun .halted)) ∧
    (placed 0 []).EndsFaulted (.invalidOpcode 0 0) ∧ jmpSelf.NeverEnds :=
  ⟨⟨rfl, 1, rfl, rfl⟩, ⟨1, _, rfl, rfl⟩, fun k => ⟨jmpSelf, jmpSelf_run k, rfl⟩⟩

/-- An admissible opcode map other than the configured one: the mnemonics numbered in table order. -/
def numbered : Mnemonic → Byte
  | .LDI => 0 | .PRN => 1 | .HLT => 2 | .ADD => 3 | .MUL => 4 | .PUSH => 5 | .POP => 6 | .CALL => 7 | .RET => 8
  | .CMP => 9 | .JMP => 10 | .JEQ => 11 | .JNE => 12

theorem witness_admissible_map : Function.Injective numbered := by
  intro a b h
  cases a <;> cases b <;> first | rfl | exact absurd h (by decide)

/-- Under that map byte 0x00 is LDI and 0x03 is ADD: the machine steps by the map it is given. -/
theorem test_step_other_map :
    stepWith numbered (placed 0 []) = .next (((placed 0 []).setReg 0 0).advance 3) ∧
    stepWith numbered (placed 0 [0x03#8, 0x00#8, 0x07#8]) = .next (((placed 0 [0x03#8, 0x00#8, 0x07#8]).setReg 0 0xF4).advance 3) ∧
    stepWith numbered (placed 0 [0x82#8]) = .next ((placed 0 [0x82#8]).raise (.invalidOpcode 0 0x82)) := ⟨rfl, rfl, rfl⟩

/-- The clauses of the step under an opcode map other than the configured one. -/
theorem witness_step_map : State.reset.run ≠ .running ∧
    ((placed 256 []).run = .running ∧ 256 ≤ (placed 256 []).pc) ∧
    ((placed 255 [13#8]).run = .running ∧ (placed 255 [13#8]).pc < 256 ∧ ∀ m, numbered m ≠ Memory.read 255 (placed 255 [13#8]).mem) ∧
    (Memory.read 254 (placed 254 [3#8]).mem = numbered .ADD ∧ 256 < 254 + Mnemonic.ADD.length) ∧
    ((placed 255 [2#8]).run = .running ∧ (placed 255 [2#8]).CodeAtWith numbered .hlt) :=
  ⟨by decide, by decide, ⟨rfl, by decide, fun m => by cases m <;> decide⟩, by decide, rfl, codeAtWith_of_fetch (by decide)⟩

/-- A map without 0x00, as the last clause about a machine that was never loaded asks. -/
theorem witness_no_zero : ∀ m, opc m ≠ 0x00#8 := fun m => (no_opcode_zero m).1

theorem witness_decodes : decodeWith numbered [3#8, 255#8, 8#8, 1#8] = .ok (.add 255 8, [1]) := by decide

theorem witness_invalid : (∀ m, numbered m ≠ 13#8) ∧ Memory.read 255 (placed 255 [0xFF#8]).mem = 0xFF#8 :=
  ⟨fun m => by cases m <;> decide, by decide⟩

/-- An instruction of each length that runs over the end, and the one-byte ones at the end. -/
theorem witness_inside_memory :
    ((placed 254 [opc .LDI]).run = .running ∧ Memory.read 254 (placed 254 [opc .LDI]).mem = opc .LDI ∧ 256 < 254 + Mnemonic.LDI.length) ∧
    ((placed 255 [opc .CMP]).run = .running ∧ Memory.read 255 (placed 255 [opc .CMP]).mem = opc .CMP ∧ 256 < 255 + Mnemonic.CMP.length) ∧
    ((placed 255 [opc .JNE]).run = .running ∧ Memory.read 255 (placed 255 [opc .JNE]).mem = opc .JNE ∧ 256 < 255 + Mnemonic.JNE.length) ∧
    Memory.read 255 hltAtEnd.mem = opc .HLT ∧ Memory.read 255 (placed 255 [opc .RET]).mem = opc .RET := by decide

/-- The lowest state and offset at which each mnemonic's operand fetch faults, for the statements that
name `OperandFetchFaults`: 254 for the three-byte ones, 255 for the two-byte ones. -/
theorem witness_operand_fetch :
    (∀ m ∈ [Mnemonic.LDI, .ADD, .MUL, .CMP], (placed 254 [opc m]).run = .running ∧ Memory.read 254 (placed 254 [opc m]).mem = opc m ∧ 256 < 254 + 3) ∧
    (∀ m ∈ [Mnemonic.PRN, .PUSH, .POP, .CALL, .JMP, .JEQ, .JNE],
      (placed 255 [opc m]).run = .running ∧ Memory.read 255 (placed 255 [opc m]).mem = opc m ∧ 256 < 255 + 2) := by decide

/-- The highest legal register operand, and the lowest illegal one. -/
theorem witness_register_operand : Names 7 7 ∧ Names 0 0 ∧ 8 ≤ (8#8 : Byte).toNat ∧ (7#8 : Byte).toNat < 8 := ⟨rfl, rfl, by decide, by decide⟩

/-- ADD and MUL: operands and the byte that is their result, `R0 = R1 = 255`. -/
theorem witness_alu :
    Names 0 0 ∧ Names 1 1 ∧
    (254#8 : Byte).toNat = ((((State.reset.setReg 0 255).setReg 1 255).reg 0).toNat + (((State.reset.setReg 0 255).setReg 1 255).reg 1).toNat) % 256 ∧
    (1#8 : Byte).toNat = ((((State.reset.setReg 0 255).setReg 1 255).reg 0).toNat * (((State.reset.setReg 0 255).setReg 1 255).reg 1).toNat) % 256 :=
  ⟨rfl, rfl, by decide, by decide⟩

/-- CMP: R0 (0), R1 (0) equal; R0 (0), R7 (0xF4) less; R7, R0 greater. -/
theorem witness_cmp : Names 0 0 ∧ Names 7 7 ∧ (State.reset.reg 0).toNat = (State.reset.reg 1).toNat ∧
    (State.reset.reg 0).toNat < (State.reset.reg 7).toNat := ⟨rfl, rfl, by decide, by decide⟩

/-- The operand bytes of the set-aside compare: equal, less, and an illegal one. -/
theorem witness_raw_cmp : Names 3 3 ∧ (0#8 : Byte).toNat < (1#8 : Byte).toNat ∧ (8 ≤ (8#8 : Byte).toNat ∨ 8 ≤ (0#8 : Byte).toNat) := ⟨rfl, by decide, by decide⟩

/-- A compare changes the flags of the reset state; the flags of `JEQ`'s state may differ in L and G. -/
theorem witness_flags : exec (.cmp 0 1) State.reset = .next ((State.reset.setFl 0x01).advance 3) ∧
    (State.reset.setFl 0x01).fl ≠ State.reset.fl ∧ (0x04#8 : Byte) &&& flagEqual = (State.reset.setFl 0x02).fl &&& flagEqual ∧
    exec (.ldi 0 1) State.reset = .next ((State.reset.setReg 0 1).advance 3) := ⟨rfl, by decide, by decide, rfl⟩

theorem witness_flags_run : (0x04#8 : Byte) &&& flagEqual = jmpSelf.fl &&& flagEqual ∧ Host.Core.run core 2 jmpSelf = .next jmpSelf :=
  ⟨by decide, jmpSelf_run 2⟩

theorem witness_flags_kept : (hltAtEnd.setFl 0x01).fl ≠ 0 ∧ step (hltAtEnd.setFl 0x01) = .next ((hltAtEnd.setFl 0x01).setRun .halted) := ⟨by decide, rfl⟩

/-- The stack pointer at both ends of a push and of a pop. -/
theorem witness_stack :
    (State.reset.setReg 7 1).sp ≠ 0x00#8 ∧ (State.reset.setReg 7 0).sp = 0x00#8 ∧
    (State.reset.setReg 7 0xFE).sp ≠ 0xFF#8 ∧ (State.reset.setReg 7 0xFF).sp = 0xFF#8 ∧
    Memory.read (State.reset.setReg 7 0xFF).sp.toNat (State.reset.setReg 7 0xFF).mem ≠ 0xFF#8 ∧
    Memory.read State.reset.sp.toNat (State.reset.setMem [(0xF4, 0xFF)]).mem = 0xFF#8 := by decide

/-- CALL's return address: 253 is the last address with one, 254 the first without. -/
theorem witness_return_address : (State.reset.setPc 253).pc + 2 < 256 ∧ 256 ≤ (State.reset.setPc 254).pc + 2 ∧
    State.reset.sp ≠ 0x00#8 := by decide

/-- The pushed cell is the third of the next instruction, and the first. -/
theorem witness_fetch_sees : (((State.reset.setPc 0x06).setReg 7 9).advance 2).pc + 0 = ((State.reset.setPc 0x06).setReg 7 9).pushSlot.toNat ∧
    (((State.reset.setPc 0x06).setReg 7 11).advance 2).pc + 2 = ((State.reset.setPc 0x06).setReg 7 11).pushSlot.toNat := by decide

theorem witness_conditional : State.reset.fl &&& flagEqual = 0 ∧ (State.reset.setFl flagEqual).fl &&& flagEqual ≠ 0 ∧
    State.reset.fl = 0 ∧ (State.reset.setFl flagLess).fl = flagLess ∧ (State.reset.setFl flagGreater).fl = flagGreater :=
  ⟨by decide, by decide, rfl, rfl, rfl⟩

theorem witness_one_byte_at_end : hltAtEnd.run = .running ∧ hltAtEnd.pc ≤ 255 ∧ Memory.read hltAtEnd.pc hltAtEnd.mem = opc .HLT ∧
    (placed 255 [opc .RET]).run = .running ∧ Memory.read 255 (placed 255 [opc .RET]).mem = opc .RET := by decide

/-- An instruction that completes, with no fault on record. -/
theorem witness_completes : exec .ret State.reset = .next ((State.reset.setReg 7 0xF5).jumpTo 0) ∧
    ∀ c, ((State.reset.setReg 7 0xF5).jumpTo 0).run ≠ .faulted c := ⟨rfl, fun c => by simp [State.reset]⟩

/-- An ill-formed and a well-formed instruction executed in `Running`. -/
theorem witness_ill_formed : (placed 0 []).run = .running ∧ (Instr.add 7 8).wellFormed = false ∧
    exec (.add 7 8) (placed 0 []) = .next ((placed 0 []).raise (.addressOutOfRange 0 .register 8)) ∧
    (Instr.jmp 7).wellFormed = true ∧ exec (.jmp 7) (placed 0 []) = .next ((placed 0 []).setPc 0xF4) :=
  ⟨rfl, by decide, rfl, by decide, rfl⟩

/-- An instruction executed in `Running` for each of the five kinds of fault an instruction raises. -/
theorem witness_faults :
    exec (.prn 8) (placed 0 []) = .next ((placed 0 []).raise (.addressOutOfRange 0 .register 8)) ∧
    exec (.push 0) ((placed 0 []).setReg 7 0) = .next (((placed 0 []).setReg 7 0).raise (.stackOverflow 0)) ∧
    exec (.call 0) (placed 254 []) = .next ((placed 254 []).raise (.addressOutOfRange 254 .memory 256)) ∧
    exec .ret ((placed 0 []).setReg 7 0xFF) = .next (((placed 0 []).setReg 7 0xFF).raise (.stackUnderflow 0)) ∧
    exec (.pop 0) ((placed 0 []).setReg 7 0xFF) = .next (((placed 0 []).setReg 7 0xFF).raise (.stackUnderflow 0)) := ⟨rfl, rfl, rfl, rfl, rfl⟩

theorem witness_first_bad_operand : (regOperands (.add 7 8)).find? (fun b => decide (8 ≤ b.toNat)) = some 8 ∧
    (regOperands (.add 9 8)).find? (fun b => decide (8 ≤ b.toNat)) = some 9 := by decide

theorem witness_step_faults : step (placed 0 []) = .next ((placed 0 []).raise (.invalidOpcode 0 0)) ∧
    ((placed 0 []).raise (.invalidOpcode 0 0)).run = .faulted (.invalidOpcode 0 0) := ⟨rfl, rfl⟩

/-- Two states with the same fault and output that differ elsewhere. -/
theorem witness_observation : (State.reset.raise (.stackOverflow 0)).run = .faulted (.stackOverflow 0) ∧
    ((State.reset.setFl 1).raise (.stackOverflow 0)).run = .faulted (.stackOverflow 0) ∧
    (State.reset.raise (.stackOverflow 0)).out = ((State.reset.setFl 1).raise (.stackOverflow 0)).out ∧
    State.reset.run = .ready ∧ hltAtEnd.run = .running := by decide

/-- A register an instruction neither reads nor writes; `JEQ` reads none when it is not taken. -/
theorem witness_registers : exec (.jeq 4) State.reset = .next (State.reset.advance 2) ∧
    (4 : Reg).val ∉ regWrites (.jeq 4) ∧ (4 : Reg).val ∉ regReads State.reset.equalSet (.jeq 4) := ⟨rfl, by decide, by decide⟩

/-- A next state of one instruction of each frame. -/
theorem witness_frames : exec (.add 0 7) State.reset = .next ((State.reset.setReg 0 0xF4).advance 3) ∧
    exec (.prn 7) State.reset = .next ((State.reset.emit 0xF4).advance 2) ∧
    exec (.push 0) State.reset = .next ((State.reset.setReg 7 0xF3).advance 2) ∧
    exec (.call 7) State.reset = .next (((State.reset.setReg 7 0xF3).setMem [(0xF3, 2)]).jumpTo 0xF3) ∧
    exec (.pop 0) State.reset = .next ((State.reset.setReg 7 0xF5).advance 2) := ⟨rfl, rfl, rfl, rfl, rfl⟩

/-- A step that changes a cell. -/
theorem witness_store : step (placed 0 [opc .CALL, 7#8]) =
      .next ((((placed 0 [opc .CALL, 7#8]).setReg 7 0xF3).setMem [(0, 0x50), (1, 7), (0xF3, 2)]).jumpTo 0xF3) ∧
    Memory.read 0xF3 [(0, 0x50#8), (1, 7#8), (0xF3, 2#8)] ≠ Memory.read 0xF3 (placed 0 [opc .CALL, 7#8]).mem := ⟨rfl, by decide⟩

/-- A state with the invariant and a next state; `pc` at its highest value keeps it. -/
theorem witness_invariant : (placed 256 []).Inv ∧ hltAtEnd.Inv ∧ step hltAtEnd = .next (hltAtEnd.setRun .halted) ∧
    (placed 0 []).Inv ∧ stepWith numbered (placed 0 []) = .next (((placed 0 []).setReg 0 0).advance 3) :=
  ⟨⟨by decide, by decide, by decide⟩, ⟨by decide, by decide, by decide⟩, rfl, ⟨by decide, by decide, by decide⟩, rfl⟩

theorem witness_load : State.reset.run = .ready ∧ (List.replicate 256 0x01#8).length ≤ 256 ∧ 256 < (List.replicate 257 0x01#8).length ∧
    hostLoad [1] State.reset = .next (State.reset.setMem [(0, 1)]) ∧ hostRun State.reset = .next (State.reset.setRun .running) :=
  ⟨rfl, by rw [List.length_replicate], by rw [List.length_replicate]; decide, rfl, rfl⟩

theorem witness_mem_edges : (255 : Nat) < 256 ∧ (256 : Nat) ≤ 256 ∧ memWrite 255 7 State.reset = .ok (State.reset.setMem [(255, 7)]) ∧
    memRead 256 State.reset = .error (.addressOutOfRange 0 .memory 256) := ⟨by decide, by decide, rfl, rfl⟩

end Sys2Proof.Tests
end

section
/-! PROOFS. R18, who writes and who reads `fl`: replacing the flags byte commutes with every operation
that does not test it (`setFl` before the operation is `setFl` on what the operation answers). -/

namespace Sys2Proof.Machine

/-- Replace the flags byte in what an effect answers; a raised cause holds no flags. -/
def effectSetFl (f : Byte) (e : Except Cause State) : Except Cause State := e.map (·.setFl f)

/-- Replace the flags byte in the next state an outcome holds. -/
def resultSetFl (f : Byte) : Result → Result
  | .next t => .next (t.setFl f)
  | .fault r => .fault r
  | .refused r => .refused r

section
variable (f : Byte) (s : State)

@[simp] theorem effectSetFl_ok : effectSetFl f (.ok s) = .ok (s.setFl f) := rfl
@[simp] theorem effectSetFl_error (c : Cause) : effectSetFl f (.error c) = .error c := rfl
@[simp] theorem resultSetFl_next : resultSetFl f (.next s) = .next (s.setFl f) := rfl

@[simp] theorem State.setReg_setFl (r : Reg) (v : Byte) : (s.setFl f).setReg r v = (s.setReg r v).setFl f := rfl
@[simp] theorem State.advance_setFl (k : Nat) : (s.setFl f).advance k = (s.advance k).setFl f := rfl
@[simp] theorem State.jumpTo_setFl (v : Byte) : (s.setFl f).jumpTo v = (s.jumpTo v).setFl f := rfl

/-! ### The shared operations -/

theorem commit_setFl (e : Except Cause State) :
    commit (s.setFl f) (effectSetFl f e) = resultSetFl f (commit s e) := by
  cases e <;> rfl

@[simp] theorem regIdx_setFl (b : Byte) : regIdx (s.setFl f) b = regIdx s b := rfl

@[simp] theorem memRead_setFl (a : Nat) : memRead a (s.setFl f) = memRead a s := rfl

@[simp] theorem returnAddress_setFl : returnAddress (s.setFl f) = returnAddress s := rfl

@[simp] theorem memWrite_setFl (a : Nat) (v : Byte) :
    memWrite a v (s.setFl f) = effectSetFl f (memWrite a v s) := by
  unfold memWrite
  split <;> rfl

@[simp] theorem decSp_setFl : decSp (s.setFl f) = effectSetFl f (decSp s) := by
  unfold decSp
  rw [State.setFl_sp]
  split <;> rfl

@[simp] theorem incSp_setFl : incSp (s.setFl f) = effectSetFl f (incSp s) := by
  unfold incSp
  rw [State.setFl_sp]
  split <;> rfl

@[simp] theorem aluApply_setFl (tag : AluTag) (a b : Reg) :
    aluApply tag a b (s.setFl f) = effectSetFl f (aluApply tag a b s) := by
  cases tag <;> rfl

variable {f s}

/-- The register check reads no flags, so only the effect has to commute. -/
theorem withReg_setFl {n : Byte} {e e' : Reg → Except Cause State} (h : ∀ r, e' r = effectSetFl f (e r)) :
    withReg (s.setFl f) n e' = resultSetFl f (withReg s n e) := by
  rw [withReg, withReg, ← commit_setFl, regIdx_setFl]
  cases regIdx s n with
  | error c => rfl
  | ok r => exact congrArg _ (h r)

theorem withRegs_setFl {a b : Byte} {e e' : Reg → Reg → Except Cause State}
    (h : ∀ ra rb, e' ra rb = effectSetFl f (e ra rb)) :
    withRegs (s.setFl f) a b e' = resultSetFl f (withRegs s a b e) :=
  withReg_setFl fun ra => by
    rw [regIdx_setFl]
    cases regIdx s b with
    | error c => rfl
    | ok rb => exact h ra rb

/-! ### The handlers -/

theorem execAlu_setFl (tag : AluTag) (a b : Byte) :
    execAlu tag a b (s.setFl f) = resultSetFl f (execAlu tag a b s) :=
  withRegs_setFl fun ra rb => by
    rw [aluApply_setFl]
    cases aluApply tag ra rb s <;> rfl

theorem execPush_setFl (n : Byte) : execPush n (s.setFl f) = resultSetFl f (execPush n s) :=
  withReg_setFl fun r => by
    rw [decSp_setFl]
    cases decSp s with
    | error c => rfl
    | ok t => simp

theorem execPop_setFl (n : Byte) : execPop n (s.setFl f) = resultSetFl f (execPop n s) :=
  withReg_setFl fun r => by
    simp only [State.setFl_sp, memRead_setFl, memRead_byte, State.setReg_setFl, incSp_setFl]
    cases incSp (s.setReg r (Memory.read s.sp.toNat s.mem)) <;> rfl

theorem execCall_setFl (n : Byte) : execCall n (s.setFl f) = resultSetFl f (execCall n s) :=
  withReg_setFl fun r => by
    rw [decSp_setFl, returnAddress_setFl]
    cases decSp s with
    | error c => rfl
    | ok t =>
      cases returnAddress s with
      | error c => rfl
      | ok ra => simp

theorem execRet_setFl : execRet (s.setFl f) = resultSetFl f (execRet s) := by
  rw [execRet, execRet, ← commit_setFl]
  simp only [State.setFl_sp, memRead_setFl, memRead_byte, incSp_setFl]
  cases incSp s <;> rfl

/-- Once it is decided whether the jump is taken, a conditional jump reads no flags. -/
theorem jumpIf_setFl (taken : Bool) (n : Byte) :
    jumpIf taken n (s.setFl f) = resultSetFl f (jumpIf taken n s) :=
  withReg_setFl fun r => by cases taken <;> rfl

/-- The one test of the flags byte sees the Equal flag only. -/
theorem equalSet_setFl (h : f &&& flagEqual = s.fl &&& flagEqual) : (s.setFl f).equalSet = s.equalSet := by
  simp [State.equalSet, h]

/-- Every instruction but CMP commutes with a replacement of `fl`, and JEQ and JNE do where the
replacement keeps the Equal flag. -/
theorem exec_setFl {i : Instr} (hcmp : ∀ a b, i ≠ .cmp a b)
    (hread : (∀ n, i ≠ .jeq n ∧ i ≠ .jne n) ∨ f &&& flagEqual = s.fl &&& flagEqual) :
    exec i (s.setFl f) = resultSetFl f (exec i s) := by
  cases i with
  | ldi n imm => exact withReg_setFl fun _ => rfl
  | prn n => exact withReg_setFl fun _ => rfl
  | hlt => rfl
  | add a b => exact execAlu_setFl .add a b
  | mul a b => exact execAlu_setFl .mul a b
  | push n => exact execPush_setFl n
  | pop n => exact execPop_setFl n
  | call n => exact execCall_setFl n
  | ret => exact execRet_setFl
  | cmp a b => exact absurd rfl (hcmp a b)
  | jmp n => exact withReg_setFl fun _ => rfl
  | jeq n =>
    have heq := hread.resolve_left fun h => (h n).1 rfl
    simp only [exec, execJeq, equalSet_setFl heq, jumpIf_setFl]
  | jne n =>
    have heq := hread.resolve_left fun h => (h n).2 rfl
    simp only [exec, execJne, equalSet_setFl heq, jumpIf_setFl]

/-- An instruction that is no CMP keeps `fl`: it commutes with writing the very byte `fl` holds. -/
theorem exec_fl_of_not_cmp {i : Instr} {t : State} (hcmp : ∀ a b, i ≠ .cmp a b) (h : exec i s = .next t) :
    t.fl = s.fl := by
  have hsame : exec i s = resultSetFl s.fl (exec i s) := exec_setFl (f := s.fl) hcmp (.inr rfl)
  rw [h, resultSetFl_next] at hsame
  calc t.fl = (t.setFl s.fl).fl := congrArg State.fl (Host.Outcome.next.inj hsame)
    _ = s.fl := rfl

/-- CMP on legal operands does not read `fl`, and overwrites the whole byte. -/
theorem exec_cmp_setFl {a b : Byte} {ra rb : Reg} (ha : Names a ra) (hb : Names b rb) :
    exec (.cmp a b) (s.setFl f) = exec (.cmp a b) s :=
  (compareUnder_of_eq cmpMode (s.setFl f) ha hb).trans (compareUnder_of_eq cmpMode s ha hb).symm

end

/-- Settles O25: writers and readers of `fl` from the commutation `exec_setFl`. -/
theorem onlyCmpWritesAndOnlyJumpsReadFlags : Obligations.OnlyCmpWritesAndOnlyJumpsReadFlags := by
  unfold Obligations.OnlyCmpWritesAndOnlyJumpsReadFlags
  refine ⟨fun i s t h hne => ?_, fun a b f ra rb s t ha hb h => (exec_cmp_setFl ha hb).trans h,
    fun i s t f hcmp hread h => ?_⟩
  · by_contra hcmp
    exact hne (exec_fl_of_not_cmp (fun a b e => hcmp ⟨a, b, e⟩) h)
  · calc exec i { s with fl := f } = resultSetFl f (exec i s) := exec_setFl hcmp hread
      _ = .next { t with fl := f } := by rw [h]; rfl

end Sys2Proof.Machine
end

section
/-! PROOFS. R32, the checked write at each side of the memory's end. -/

namespace Sys2Proof.Machine

/-- Settles O55: inside memory the answer is `setMem` of `Memory.write`, which the read-after-write
laws describe cell by cell and which touches `mem` only; from the memory's end on it is the fault. -/
theorem memWriteChangesOneCell : Obligations.MemWriteChangesOneCell := by
  unfold Obligations.MemWriteChangesOneCell
  intro s a v
  obtain ⟨hin, hwrite⟩ | ⟨hout, hfault⟩ := memWrite_cases a v s
  · have hothers : ∀ b, b ≠ a → Memory.read b (Memory.write a v s.mem) = Memory.read b s.mem :=
      fun _ hne => Memory.read_write_other hne v s.mem
    exact ⟨fun _ => ⟨_, hwrite, Memory.read_write_same a v s.mem, hothers, rfl, rfl, rfl, rfl, rfl⟩,
      fun hout => absurd hin (Nat.not_lt.mpr hout)⟩
  · exact ⟨fun hin => absurd hin (Nat.not_lt.mpr hout), fun _ => hfault⟩

end Sys2Proof.Machine
end

section
/-! PROOFS. R57, the bytes that are no opcode: the dispatch table misses them, so the decoder and the
step reject them before any operand is looked at; and an injective map leaves 256 - 13 of them. -/

namespace Sys2Proof

/-! ### The rows of the dispatch table -/

/-- The table has a row for every mnemonic. -/
@[simp] theorem Mnemonic.mem_all (m : Mnemonic) : m ∈ Mnemonic.all := by
  cases m <;> decide

theorem Mnemonic.all_nodup : Mnemonic.all.Nodup := by decide

/-- The lookup misses exactly the bytes that are no value of the map. -/
theorem lookupWith_eq_none {code : Mnemonic → Byte} {op : Byte} :
    lookupWith code op = none ↔ ∀ m, code m ≠ op := by
  simp [lookupWith]

theorem decodeWith_of_not_opcode {code : Mnemonic → Byte} {op : Byte} (h : ∀ m, code m ≠ op)
    (rest : List Byte) : decodeWith code (op :: rest) = .error (.invalidOpcode op) := by
  simp [decodeWith, lookupWith_eq_none.mpr h]

/-! ### Counting the bytes outside the map -/

/-- The values of an opcode map, as numbers, in the table's order. -/
def opcodeValues (code : Mnemonic → Byte) : List Nat := Mnemonic.all.map fun m => (code m).toNat

theorem opcodeValues_subset_range (code : Mnemonic → Byte) :
    (opcodeValues code).toFinset ⊆ Finset.range 256 := by
  intro v hv
  obtain ⟨m, -, rfl⟩ := List.mem_map.mp (List.mem_toFinset.mp hv)
  exact Finset.mem_range.mpr (code m).isLt

/-- An injective map has thirteen values. -/
theorem opcodeValues_card {code : Mnemonic → Byte} (h : Function.Injective code) :
    (opcodeValues code).toFinset.card = 13 := by
  have hinj : Function.Injective fun m => (code m).toNat := fun _ _ e => h (BitVec.eq_of_toNat_eq e)
  rw [opcodeValues, List.toFinset_card_of_nodup (Mnemonic.all_nodup.map hinj), List.length_map]
  rfl

/-- The bytes that match no row are those outside the map's values. -/
theorem filter_not_opcode (code : Mnemonic → Byte) :
    ((Finset.range 256).filter fun v => Mnemonic.all.all fun m => (code m).toNat != v) =
      Finset.range 256 \ (opcodeValues code).toFinset := by
  ext v
  simp [opcodeValues]

theorem card_not_opcode {code : Mnemonic → Byte} (h : Function.Injective code) :
    ((Finset.range 256).filter fun v => Mnemonic.all.all fun m => (code m).toNat != v).card = 243 := by
  rw [filter_not_opcode, Finset.card_sdiff_of_subset (opcodeValues_subset_range code),
    opcodeValues_card h, Finset.card_range]

/-! ### The step on such a byte -/

namespace Machine

/-- Inside memory the fetch starts with the cell at the address, whatever lies after it. -/
theorem fetchBytes_inside {a : Nat} (h : a < Config.memSize) (k : Nat) (m : Memory) :
    fetchBytes (k + 1) a m = Memory.read a m :: fetchBytes k (a + 1) m := if_pos h

theorem fetchInstrWith_of_not_opcode {code : Mnemonic → Byte} {s : State} (hpc : s.pc < Config.memSize)
    (h : ∀ m, code m ≠ Memory.read s.pc s.mem) :
    fetchInstrWith code s = .error (.invalidOpcode s.pc (Memory.read s.pc s.mem)) := by
  rw [fetchInstrWith, fetchBytes_inside hpc, decodeWith_of_not_opcode h]
  rfl

/-- Settles O14: the table misses the byte, the step takes the fault of the failed decode, and the
bytes missed are the complement of thirteen distinct values. -/
theorem otherOpcodeBytesAreInvalid : Obligations.OtherOpcodeBytesAreInvalid := by
  unfold Obligations.OtherOpcodeBytesAreInvalid
  exact ⟨fun _ _ rest h => decodeWith_of_not_opcode h rest, fun _ h => card_not_opcode h,
    fun _ _ hrun hpc h => stepWith_of_fetch_error hrun (fetchInstrWith_of_not_opcode hpc h)⟩

end Machine

end Sys2Proof
end

section
/-! PROOFS. R71, one step: the bytes at `pc` begin with the encoding of the instruction that lies there,
and the decoder gives that instruction back, so the step executes it. -/

namespace Sys2Proof

/-! ### Decoding an encoding -/

/-- No two mnemonics share a configured opcode. -/
theorem opc_injective : Function.Injective opc := fun a b h =>
  List.inj_on_of_nodup_map (by decide : (Mnemonic.all.map opc).Nodup) a.mem_all b.mem_all h

/-- An injective map's lookup finds the mnemonic the byte was taken from: the row found has its byte. -/
theorem lookupWith_of_injective {code : Mnemonic → Byte} (hinj : Function.Injective code) (m : Mnemonic) :
    lookupWith code (code m) = some m := by
  cases hl : lookupWith code (code m) with
  | none => exact absurd rfl (lookupWith_eq_none.mp hl m)
  | some m' => exact congrArg some (hinj (eq_of_beq (List.find?_some hl :)))

theorem takeOperands_operandBytes (i : Instr) (rest : List Byte) :
    takeOperands i.mnemonic (i.operandBytes ++ rest) = .ok (i, rest) := by
  cases i <;> rfl

theorem decodeWith_encodeWith {code : Mnemonic → Byte} (hinj : Function.Injective code) (i : Instr)
    (rest : List Byte) : decodeWith code (encodeWith code i ++ rest) = .ok (i, rest) := by
  simp only [encodeWith, List.cons_append, decodeWith, lookupWith_of_injective hinj, takeOperands_operandBytes]

theorem encodeWith_length_le (code : Mnemonic → Byte) (i : Instr) : (encodeWith code i).length ≤ 3 := by
  cases i <;> simp [encodeWith, Instr.operandBytes]

/-! ### Fetching it -/

namespace Machine

/-- The fetch sees the whole of an instruction that lies at `pc`, and what follows it in memory. -/
theorem encodeWith_prefix_fetchBytes {code : Mnemonic → Byte} {s : State} {i : Instr}
    (hcode : s.CodeAtWith code i) : encodeWith code i <+: fetchBytes 3 s.pc s.mem := by
  rw [List.prefix_iff_getElem?]
  intro k hk
  obtain ⟨hinside, hread⟩ := hcode k _ (List.getElem?_eq_getElem hk)
  have hk3 : k < 3 := hk.trans_le (encodeWith_length_le code i)
  rw [fetchBytes_getElem?, if_pos ⟨hk3, hinside⟩, hread]

theorem fetchInstrWith_of_codeAtWith {code : Mnemonic → Byte} (hinj : Function.Injective code) {s : State}
    {i : Instr} (hcode : s.CodeAtWith code i) : fetchInstrWith code s = .ok i := by
  obtain ⟨rest, hbytes⟩ := encodeWith_prefix_fetchBytes hcode
  rw [fetchInstrWith, ← hbytes, decodeWith_encodeWith hinj]

/-- A running machine executes the instruction whose bytes lie at `pc`. -/
theorem step_of_codeAt {s : State} {i : Instr} (hrun : s.run = .running) (hcode : s.CodeAt i) :
    step s = exec i s :=
  stepWith_of_fetch hrun (fetchInstrWith_of_codeAtWith opc_injective hcode)

/-- Settles O3: a step that answers was taken in `Running`, and there the fetch at `pc` misses memory,
meets a byte of no mnemonic, or gives the instruction that lies at `pc`. -/
theorem stepFetchesDecodesExecutes : Obligations.StepFetchesDecodesExecutes := by
  unfold Obligations.StepFetchesDecodesExecutes
  refine ⟨fun s t hrun h => hrun (step_next h).1, fun s hrun => ⟨fun hout => ?_, fun hin hop => ?_, fun i => ?_⟩⟩
  · exact stepWith_of_fetch_error hrun (fetchInstrWith_outside opc hout)
  · exact stepWith_of_fetch_error hrun (fetchInstrWith_of_not_opcode hin hop)
  · exact step_of_codeAt hrun

end Machine

end Sys2Proof
end

section
/-! PROOFS. R78, a run need not end: every step in `Running` answers a next state, which is again
`Running` unless it halted or faulted; and a JMP to its own address answers the state it started in. -/

namespace Sys2Proof.Machine

/-! ### What an instruction does to the run state -/

/-- An effect that does not touch the run state: where it raises no cause, `run` is as in `s`. -/
def KeepsRun (s : State) : Except Cause State → Prop
  | .ok t => t.run = s.run
  | .error _ => True

/-- An outcome of `s` that is a next state, with `run` as in `s` or with a fault taken in `s`. -/
def Completes (s : State) (o : Result) : Prop :=
  ∃ t, o = .next t ∧ (t.run = s.run ∨ ∃ c, t = s.raise c)

section
variable {s : State}

theorem completes_commit {e : Except Cause State} (h : KeepsRun s e) : Completes s (commit s e) := by
  cases e with
  | ok t => exact ⟨t, rfl, .inl h⟩
  | error c => exact ⟨s.raise c, rfl, .inr ⟨c, rfl⟩⟩

theorem completes_withReg {n : Byte} {effect : Reg → Except Cause State} (h : ∀ r, KeepsRun s (effect r)) :
    Completes s (withReg s n effect) := by
  refine completes_commit ?_
  cases regIdx s n with
  | ok r => exact h r
  | error c => trivial

theorem completes_withRegs {a b : Byte} {effect : Reg → Reg → Except Cause State}
    (h : ∀ ra rb, KeepsRun s (effect ra rb)) : Completes s (withRegs s a b effect) := by
  refine completes_withReg fun ra => ?_
  cases regIdx s b with
  | ok rb => exact h ra rb
  | error c => trivial

variable (s)

theorem completes_execAlu (tag : AluTag) (a b : Byte) : Completes s (execAlu tag a b s) := by
  refine completes_withRegs fun ra rb => ?_
  obtain ⟨v, he⟩ | ⟨code, -, he⟩ := aluApply_cases tag ra rb s
  · rw [he]; rfl
  · rw [he]; trivial

theorem completes_execPush (n : Byte) : Completes s (execPush n s) := by
  refine completes_withReg fun r => ?_
  obtain ⟨-, he⟩ | ⟨-, he⟩ := decSp_cases s
  · rw [he]; trivial
  · simp only [he, memWrite_byte]; rfl

theorem completes_execPop (n : Byte) : Completes s (execPop n s) := by
  refine completes_withReg fun r => ?_
  rw [memRead_byte]
  obtain ⟨-, he⟩ | ⟨-, he⟩ := incSp_cases (s.setReg r (Memory.read s.sp.toNat s.mem))
  · simp only [he]; trivial
  · simp only [he]; rfl

theorem completes_execCall (n : Byte) : Completes s (execCall n s) := by
  refine completes_withReg fun r => ?_
  obtain ⟨-, he⟩ | ⟨-, he⟩ := decSp_cases s
  · rw [he]; trivial
  · obtain ⟨-, hra⟩ | ⟨-, hra⟩ := returnAddress_cases s
    · simp only [he, hra, memWrite_byte]; rfl
    · simp only [he, hra]; trivial

theorem completes_execRet : Completes s (execRet s) := by
  refine completes_commit ?_
  rw [memRead_byte]
  obtain ⟨-, he⟩ | ⟨-, he⟩ := incSp_cases s
  · simp only [he]; trivial
  · simp only [he]; rfl

theorem completes_jumpIf (taken : Bool) (n : Byte) : Completes s (jumpIf taken n s) :=
  completes_withReg fun _ => by cases taken <;> rfl

/-- Every instruction but HLT answers a next state, and changes `run` only to take a fault. -/
theorem completes_exec {i : Instr} (hhlt : i ≠ .hlt) : Completes s (exec i s) := by
  cases i with
  | ldi n imm => exact completes_withReg fun _ => rfl
  | prn n => exact completes_withReg fun _ => rfl
  | hlt => exact absurd rfl hhlt
  | add a b => exact completes_execAlu s .add a b
  | mul a b => exact completes_execAlu s .mul a b
  | push n => exact completes_execPush s n
  | pop n => exact completes_execPop s n
  | call n => exact completes_execCall s n
  | ret => exact completes_execRet s
  | cmp a b => exact completes_withRegs fun _ _ => rfl
  | jmp n => exact completes_withReg fun _ => rfl
  | jeq n => exact completes_jumpIf s s.equalSet n
  | jne n => exact completes_jumpIf s (!s.equalSet) n

end

/-- A step in `Running` answers, and its next state is `Running`, or `Halted` by HLT, or `Faulted`. -/
theorem step_answers {s : State} (hrun : s.run = .running) :
    ∃ t, step s = .next t ∧
      (t.run = .running ∨ (t.run = .halted ∧ fetchInstr s = .ok .hlt) ∨ ∃ c, t.run = .faulted c) := by
  cases hf : fetchInstr s with
  | error c => exact ⟨_, stepWith_of_fetch_error hrun hf, .inr (.inr ⟨c, rfl⟩)⟩
  | ok i =>
    have hstep : step s = exec i s := stepWith_of_fetch hrun hf
    by_cases hhlt : i = .hlt
    · subst hhlt
      exact ⟨_, hstep, .inr (.inl ⟨rfl, rfl⟩)⟩
    · obtain ⟨t, ht, hkept | ⟨c, rfl⟩⟩ := completes_exec s hhlt
      · exact ⟨t, hstep.trans ht, .inl (hkept.trans hrun)⟩
      · exact ⟨_, hstep.trans ht, .inr (.inr ⟨c, rfl⟩)⟩

/-! ### Runs of many steps -/

/-- `Host.Core.run` takes its first step first; this is the same run, its last step taken last. -/
theorem run_succ_of_run {M : Host.Core} {k : Nat} {s t : M.State} (h : M.run k s = .next t) :
    M.run (k + 1) s = M.step t := by
  induction k generalizing s with
  | zero =>
    cases h
    simp only [Host.Core.run]
    cases M.step t <;> rfl
  | succ k ih =>
    cases hs : M.step s with
    | next s' =>
      have hfirst : ∀ j, M.run (j + 1) s = M.run j s' := fun j => by simp only [Host.Core.run, hs]
      rw [hfirst]
      exact ih ((hfirst k).symm.trans h)
    | fault r => simp [Host.Core.run, hs] at h
    | refused r => simp [Host.Core.run, hs] at h

/-- A state that steps to itself is where every run of it is. -/
theorem run_of_step_self {s : State} (h : step s = .next s) (k : Nat) : Host.Core.run core k s = .next s := by
  induction k with
  | zero => rfl
  | succ k ih => exact (run_succ_of_run ih).trans h

/-- A run that is nowhere `Halted` or `Faulted` has no last step. -/
theorem neverEnds_of_no_end {s : State} (hrun : s.run = .running)
    (hend : ∀ k t, Host.Core.run core k s = .next t → t.run ≠ .halted ∧ ∀ c, t.run ≠ .faulted c) :
    s.NeverEnds := by
  intro k
  induction k with
  | zero => exact ⟨s, rfl, hrun⟩
  | succ k ih =>
    obtain ⟨t, hreach, htrun⟩ := ih
    obtain ⟨u, hstep, hu⟩ := step_answers htrun
    have hnext : Host.Core.run core (k + 1) s = .next u := (run_succ_of_run hreach).trans hstep
    obtain ⟨hnothalted, hnotfaulted⟩ := hend (k + 1) u hnext
    obtain hrunning | ⟨hhalted, -⟩ | ⟨c, hfaulted⟩ := hu
    · exact ⟨u, hnext, hrunning⟩
    · exact absurd hhalted hnothalted
    · exact absurd hfaulted (hnotfaulted c)

/-! ### JMP to its own address -/

theorem exec_jmp_of_names (s : State) {n : Byte} {r : Reg} (hn : Names n r) :
    exec (.jmp n) s = .next (s.jumpTo (s.reg r)) :=
  withReg_of_eq s hn _

theorem jumpTo_pc_self {s : State} {v : Byte} (h : v.toNat = s.pc) : s.jumpTo v = s := by
  rw [State.jumpTo, h]
  rfl

/-- Settles O7: JMP to its own address steps to the state it started in, and any other run that does
not end goes on by `step_answers`, by induction on the number of steps. -/
theorem aRunNeedNotEnd : Obligations.ARunNeedNotEnd := by
  unfold Obligations.ARunNeedNotEnd
  refine ⟨fun s n r hrun hn hcode htarget => ?_, fun s => neverEnds_of_no_end⟩
  have hself : step s = .next s := by
    rw [step_of_codeAt hrun hcode, exec_jmp_of_names s hn, jumpTo_pc_self htarget]
  exact fun k => ⟨s, run_of_step_self hself k, hrun⟩

end Sys2Proof.Machine
end

section
/-! PROOFS. R60, the operand fetch at the end of memory: the bytes that memory still has are fewer than
the instruction asks for, so the decoder misses the operand whose address is 256. -/

namespace Sys2Proof

/-- No instruction is longer than one fetch. -/
theorem Mnemonic.length_le (m : Mnemonic) : m.length ≤ 3 := by
  cases m <;> decide

/-- With too few bytes after the opcode, the operand missed is the one right after the last byte. -/
theorem takeOperands_of_short {m : Mnemonic} {rest : List Byte} (h : rest.length + 1 < m.length) :
    takeOperands m rest = .error (.missingOperand (rest.length + 1)) := by
  match rest with
  | [] => cases m <;> simp [Mnemonic.length, takeOperands, takeOne, takeTwo] at h ⊢
  | [_] => cases m <;> simp [Mnemonic.length, takeOperands, takeTwo] at h ⊢
  | _ :: _ :: rest =>
    have hlen := m.length_le
    simp only [List.length_cons] at h
    omega

theorem decodeWith_of_short {code : Mnemonic → Byte} (hinj : Function.Injective code) {m : Mnemonic}
    {rest : List Byte} (h : rest.length + 1 < m.length) :
    decodeWith code (code m :: rest) = .error (.missingOperand (rest.length + 1)) := by
  simp only [decodeWith, lookupWith_of_injective hinj, takeOperands_of_short h]

namespace Machine

/-- A fetch is cut off at the end of memory. -/
theorem fetchBytes_length (k a : Nat) (m : Memory) :
    (fetchBytes k a m).length = min k (Config.memSize - a) := by
  induction k generalizing a with
  | zero => simp [fetchBytes]
  | succ k ih =>
    by_cases ha : a < Config.memSize
    · rw [fetchBytes_inside ha, List.length_cons, ih]
      omega
    · rw [fetchBytes_outside (Nat.not_lt.mp ha), List.length_nil]
      omega

theorem fetchInstrWith_of_short {code : Mnemonic → Byte} (hinj : Function.Injective code) {s : State}
    {m : Mnemonic} (hpc : s.pc < Config.memSize) (hop : Memory.read s.pc s.mem = code m)
    (hend : Config.memSize < s.pc + m.length) :
    fetchInstrWith code s = .error (.addressOutOfRange s.pc .memory Config.memSize) := by
  have hlen := m.length_le
  have hrest : s.pc + ((fetchBytes 2 (s.pc + 1) s.mem).length + 1) = Config.memSize := by
    rw [fetchBytes_length]
    omega
  have hshort : (fetchBytes 2 (s.pc + 1) s.mem).length + 1 < m.length := by omega
  rw [fetchInstrWith, fetchBytes_inside hpc, hop, decodeWith_of_short hinj hshort]
  simp only [decodeCause, hrest]

/-- Under every admissible map an instruction that crosses the end of memory faults at address 256. -/
theorem operandFetchFaultsWith_length {code : Mnemonic → Byte} (hinj : Function.Injective code)
    (m : Mnemonic) : OperandFetchFaultsWith code m m.length :=
  fun _ hrun hpc hop hend => stepWith_of_fetch_error hrun (fetchInstrWith_of_short hinj hpc hop hend)

theorem operandFetchFaults_length (m : Mnemonic) : OperandFetchFaults m m.length :=
  operandFetchFaultsWith_length opc_injective m

end Machine

end Sys2Proof
end

section
/-! PROOFS. R85 and R86, LDI and PRN: a legal register byte lets the effect through, any other faults
before it. -/

namespace Sys2Proof.Machine

theorem exec_ldi_of_names (s : State) {n : Byte} {r : Reg} (hn : Names n r) (imm : Byte) :
    exec (.ldi n imm) s = .next ((s.setReg r imm).advance 3) :=
  withReg_of_eq s hn _

theorem exec_prn_of_names (s : State) {n : Byte} {r : Reg} (hn : Names n r) :
    exec (.prn n) s = .next ((s.emit (s.reg r)).advance 2) :=
  withReg_of_eq s hn _

theorem ldi_registerFaults (imm : Byte) : RegisterFaults fun n => .ldi n imm :=
  fun s _ hn => withReg_of_ge s hn _

theorem prn_registerFaults : RegisterFaults .prn :=
  fun s _ hn => withReg_of_ge s hn _

/-- What LDI loads, PRN of the same register hands to the output port. -/
theorem exec_ldi_then_prn (s : State) {n : Byte} {r : Reg} (hn : Names n r) (imm : Byte) :
    ∃ t u, exec (.ldi n imm) s = .next t ∧ exec (.prn n) t = .next u ∧ u.out = s.out ++ [imm] :=
  ⟨_, _, exec_ldi_of_names s hn imm, exec_prn_of_names _ hn, by simp⟩

/-- Settles O16: the effect by `exec_ldi_of_names`, which PRN then reads back; the two faults are those
of the register check and of the operand fetch. -/
theorem ldiLoadsTheImmediate : Obligations.LdiLoadsTheImmediate := by
  unfold Obligations.LdiLoadsTheImmediate
  exact ⟨fun _ _ => rfl, fun s _ imm _ hn => exec_ldi_of_names s hn imm, ldi_registerFaults,
    operandFetchFaults_length .LDI, fun s _ imm _ hn => exec_ldi_then_prn s hn imm⟩

/-- Settles O17: the effect by `exec_prn_of_names`; the two faults are those of the register check and of
the operand fetch. -/
theorem prnEmitsTheRegister : Obligations.PrnEmitsTheRegister := by
  unfold Obligations.PrnEmitsTheRegister
  exact ⟨fun _ => rfl, fun s _ _ hn => exec_prn_of_names s hn, prn_registerFaults,
    operandFetchFaults_length .PRN⟩

end Sys2Proof.Machine
end

section
/-! PROOFS. R91 and R92, ADD and MUL: the ALU's result at each tag, written to the first register of two
legal ones; a bad register byte faults before the ALU is asked. -/

namespace Sys2Proof.Machine

/-- Every two-register instruction checks its bytes by `withRegs`, so the first bad one is reported. -/
theorem twoRegisterFaults_of_withRegs {form : Byte → Byte → Instr}
    (h : ∀ s a b, ∃ effect, exec (form a b) s = withRegs s a b effect) : TwoRegisterFaults form := by
  intro s a b
  obtain ⟨effect, hexec⟩ := h s a b
  rw [hexec]
  exact ⟨fun ha => withRegs_of_first s ha effect,
    fun ha hb => withRegs_of_second s (ra := ⟨a.toNat, ha⟩) rfl hb effect⟩

section
variable {s : State} {ra rb : Reg} {v : Byte}

theorem aluApply_add (hv : v.toNat = ((s.reg ra).toNat + (s.reg rb).toNat) % 256) :
    aluApply .add ra rb s = .ok (s.setReg ra v) := by
  rw [aluApply, ← hv, BitVec.ofNat_toNat, BitVec.setWidth_eq]

theorem aluApply_mul (hv : v.toNat = ((s.reg ra).toNat * (s.reg rb).toNat) % 256) :
    aluApply .mul ra rb s = .ok (s.setReg ra v) := by
  rw [aluApply, ← hv, BitVec.ofNat_toNat, BitVec.setWidth_eq]

/-- On legal operands the byte the ALU writes is the only change beside the advance. -/
theorem execAlu_of_aluApply {tag : AluTag} {a b : Byte} (ha : Names a ra) (hb : Names b rb)
    (hv : aluApply tag ra rb s = .ok (s.setReg ra v)) :
    execAlu tag a b s = .next ((s.setReg ra v).advance 3) := by
  rw [execAlu_of_eq tag s ha hb, hv]
  rfl

end

/-- Settles O20: the ALU's result by `aluApply_add`, written and advanced by `execAlu_of_aluApply`; the
faults are those of the two register checks and of the operand fetch. -/
theorem addIsTheSumModulo256 : Obligations.AddIsTheSumModulo256 := by
  unfold Obligations.AddIsTheSumModulo256
  exact ⟨fun _ _ => rfl, fun _ _ _ _ _ _ ha hb hv => execAlu_of_aluApply ha hb (aluApply_add hv),
    twoRegisterFaults_of_withRegs fun _ _ _ => ⟨_, rfl⟩, operandFetchFaults_length .ADD⟩

/-- Settles O21: as O20, with the ALU's result by `aluApply_mul`. -/
theorem mulIsTheProductModulo256 : Obligations.MulIsTheProductModulo256 := by
  unfold Obligations.MulIsTheProductModulo256
  exact ⟨fun _ _ => rfl, fun _ _ _ _ _ _ ha hb hv => execAlu_of_aluApply ha hb (aluApply_mul hv),
    twoRegisterFaults_of_withRegs fun _ _ _ => ⟨_, rfl⟩, operandFetchFaults_length .MUL⟩

end Sys2Proof.Machine
end

section
/-! PROOFS. R101 and R102, PUSH and POP: each as one state update where the stack pointer can move, and
as the fault where it cannot; POP after PUSH of one register undoes the move of the stack pointer. -/

namespace Sys2Proof.Machine

/-- What PUSH of register `r` leaves: the stack pointer one lower, and `x[r]`, read after that, in the
cell it points to (R101). -/
def State.afterPush (s : State) (r : Reg) : State :=
  ((s.setReg spReg s.pushSlot).setMem
    (Memory.write s.pushSlot.toNat ((s.setReg spReg s.pushSlot).reg r) s.mem)).advance 2

/-- POP's first write: the byte at the stack pointer, into register `r` (R102). -/
def State.popInto (s : State) (r : Reg) : State := s.setReg r (Memory.read s.sp.toNat s.mem)

/-- What POP into register `r` leaves: the stack pointer is incremented after the write (R102). -/
def State.afterPop (s : State) (r : Reg) : State :=
  ((s.popInto r).setReg spReg ((s.popInto r).sp + 1)).advance 2

section
variable {s : State} {n : Byte} {r : Reg}

/-- Writing the value a register already holds changes nothing. -/
theorem State.setReg_reg_self (s : State) (r : Reg) : s.setReg r (s.reg r) = s := by
  simp only [State.setReg, State.reg, Vector.get_eq_getElem, Vector.set_getElem_self]

/-! ### PUSH -/

theorem exec_push_of_sp_ne_zero (hn : Names n r) (hsp : s.sp ≠ 0x00#8) :
    exec (.push n) s = .next (s.afterPush r) := by
  rw [exec, execPush, withReg_of_eq s hn]
  simp only [decSp, if_neg hsp, memWrite_byte]
  rfl

theorem exec_push_of_sp_eq_zero (hn : Names n r) (hsp : s.sp = 0x00#8) :
    exec (.push n) s = .next (s.raise (.stackOverflow s.pc)) := by
  rw [exec, execPush, withReg_of_eq s hn]
  simp only [decSp, if_pos hsp]
  rfl

theorem push_registerFaults : RegisterFaults .push :=
  fun s _ hn => withReg_of_ge s hn _

theorem State.afterPush_reg (s : State) (r q : Reg) :
    (s.afterPush r).reg q = if q = spReg then s.pushSlot else s.reg q :=
  State.reg_setReg ..

@[simp] theorem State.afterPush_sp (s : State) (r : Reg) : (s.afterPush r).sp = s.pushSlot :=
  State.reg_setReg_same ..

/-- The byte at the new stack pointer is what the pushed register holds after the decrement. -/
theorem State.afterPush_read_sp (s : State) (r : Reg) :
    Memory.read (s.afterPush r).sp.toNat (s.afterPush r).mem = (s.afterPush r).reg r := by
  rw [State.afterPush_sp]
  exact Memory.read_write_same ..

theorem State.afterPush_read_other {a : Nat} (ha : a ≠ (s.afterPush r).sp.toNat) :
    Memory.read a (s.afterPush r).mem = Memory.read a s.mem := by
  rw [State.afterPush_sp] at ha
  exact Memory.read_write_other ha ..

/-! ### POP -/

theorem exec_pop_of_names (hn : Names n r) :
    exec (.pop n) s = commit s ((incSp (s.popInto r)).map (·.advance 2)) := by
  rw [exec, execPop, withReg_of_eq s hn, State.popInto]
  simp only [memRead_byte]
  cases incSp (s.setReg r (Memory.read s.sp.toNat s.mem)) <;> rfl

theorem exec_pop_of_sp_ne_max (hn : Names n r) (hsp : (s.popInto r).sp ≠ 0xFF#8) :
    exec (.pop n) s = .next (s.afterPop r) := by
  rw [exec_pop_of_names hn, incSp, if_neg hsp]
  rfl

theorem exec_pop_of_sp_eq_max (hn : Names n r) (hsp : (s.popInto r).sp = 0xFF#8) :
    exec (.pop n) s = .next (s.raise (.stackUnderflow s.pc)) := by
  rw [exec_pop_of_names hn, incSp, if_pos hsp]
  rfl

theorem pop_registerFaults : RegisterFaults .pop :=
  fun s _ hn => withReg_of_ge s hn _

/-- POP into another register leaves the stack pointer as it was for the increment. -/
theorem State.popInto_sp_of_ne (hr : r ≠ spReg) : (s.popInto r).sp = s.sp :=
  State.reg_setReg_ne _ _ _ hr.symm

/-- POP into register 7 increments the popped byte (R105). -/
theorem State.popInto_spReg_sp (s : State) : (s.popInto spReg).sp = Memory.read s.sp.toNat s.mem :=
  State.reg_setReg_same ..

theorem State.afterPop_of_ne (hr : r ≠ spReg) :
    s.afterPop r = { s with
      x := (s.x.set r (Memory.read s.sp.toNat s.mem)).set 7 (s.sp + 1), pc := s.pc + 2 } := by
  rw [State.afterPop, State.popInto_sp_of_ne hr]
  rfl

/-- Of the two writes of register 7 the second, the increment, is the one that stays. -/
theorem State.afterPop_spReg (s : State) :
    s.afterPop spReg = { s with x := s.x.set 7 (Memory.read s.sp.toNat s.mem + 1), pc := s.pc + 2 } := by
  rw [State.afterPop, State.popInto_spReg_sp]
  simp [State.popInto, State.setReg, State.advance, State.setPc, Vector.set_set]

/-! ### POP after PUSH -/

/-- POP of the register just pushed first writes it with the value it holds already. -/
theorem State.popInto_afterPush (s : State) (r : Reg) : (s.afterPush r).popInto r = s.afterPush r := by
  rw [State.popInto, State.afterPush_read_sp, State.setReg_reg_self]

theorem pushSlot_add_one (s : State) : s.pushSlot + 1 = s.sp :=
  BitVec.sub_add_cancel ..

/-- A stack pointer that was decremented without a fault can be incremented again. -/
theorem pushSlot_ne_max (hsp : s.sp ≠ 0x00#8) : s.pushSlot ≠ 0xFF#8 := by
  intro hmax
  have hnat : s.pushSlot.toNat + 1 = s.sp.toNat := pushSlot_toNat hsp
  have hlt : s.sp.toNat < 256 := s.sp.isLt
  rw [hmax] at hnat
  simp only [BitVec.toNat_ofNat] at hnat
  omega

/-- PUSH then POP of one register restores all eight. -/
theorem State.afterPop_afterPush_reg (s : State) (r q : Reg) :
    ((s.afterPush r).afterPop r).reg q = s.reg q := by
  rw [State.afterPop, State.popInto_afterPush, State.afterPush_sp, pushSlot_add_one, State.advance_reg,
    State.reg_setReg, State.afterPush_reg]
  split
  next h => rw [h]; rfl
  next => rfl

theorem exec_pop_afterPush (hn : Names n r) (hsp : s.sp ≠ 0x00#8) :
    exec (.pop n) (s.afterPush r) = .next ((s.afterPush r).afterPop r) := by
  refine exec_pop_of_sp_ne_max hn ?_
  rw [State.popInto_afterPush, State.afterPush_sp]
  exact pushSlot_ne_max hsp

end

/-- Settles O28: the effect is `State.afterPush`, read register by register and cell by cell; the faults
are those of the stack's edge, of the register check and of the operand fetch. -/
theorem pushDecrementsThenStores : Obligations.PushDecrementsThenStores := by
  unfold Obligations.PushDecrementsThenStores
  refine ⟨fun _ => rfl, fun s n r hn hsp => ⟨s.afterPush r, exec_push_of_sp_ne_zero hn hsp, ?_, ?_,
      s.afterPush_read_sp r, fun _ => State.afterPush_read_other, rfl, rfl, rfl, rfl⟩,
    fun _ _ _ => exec_push_of_sp_eq_zero, push_registerFaults, operandFetchFaults_length .PUSH⟩
  · rw [State.afterPush_sp]
    exact pushSlot_toNat hsp
  · intro q hq
    rw [State.afterPush_reg, if_neg hq]

/-- Settles O29: POP tests and increments the stack pointer after the write of the popped byte, so its
cases are those of `State.popInto` at register 7 and at the others; after PUSH that write changes
nothing (`State.popInto_afterPush`), and the increment undoes the decrement. -/
theorem popReadsThenIncrements : Obligations.PopReadsThenIncrements := by
  unfold Obligations.PopReadsThenIncrements
  refine ⟨fun _ => rfl, fun s n r hn hr hsp => ?_, fun s n hn hbyte => ?_, fun s n r hn hedge => ?_,
    pop_registerFaults, operandFetchFaults_length .POP, fun s n r hn hsp => ?_⟩
  · rw [← State.afterPop_of_ne hr]
    exact exec_pop_of_sp_ne_max hn ((State.popInto_sp_of_ne hr).trans_ne hsp)
  · rw [← State.afterPop_spReg]
    exact exec_pop_of_sp_ne_max hn (s.popInto_spReg_sp.trans_ne hbyte)
  · refine exec_pop_of_sp_eq_max hn ?_
    obtain ⟨hr, hmax⟩ | ⟨rfl, hmax⟩ := hedge
    · exact (State.popInto_sp_of_ne hr).trans hmax
    · exact s.popInto_spReg_sp.trans hmax
  · exact ⟨_, _, exec_push_of_sp_ne_zero hn hsp, exec_pop_afterPush hn hsp,
      s.afterPop_afterPush_reg r r, s.afterPop_afterPush_reg r spReg⟩

end Sys2Proof.Machine
end

section
/-! PROOFS. R112, RET: the increment of the stack pointer and the jump to the byte it pointed to, or the
fault where it cannot move; after CALL both of CALL's changes to the registers are undone. -/

namespace Sys2Proof.Machine

/-- What CALL of register `r` leaves: the stack pointer one lower, the return address in the cell it points
to, and `pc` at `x[r]`, read after the decrement (R111). -/
def State.afterCall (s : State) (r : Reg) : State :=
  ((s.setReg spReg s.pushSlot).setMem
    (Memory.write s.pushSlot.toNat (BitVec.ofNat 8 (s.pc + 2)) s.mem)).jumpTo
      ((s.setReg spReg s.pushSlot).reg r)

/-- What RET leaves: `pc` at the byte the stack pointer points to, and the stack pointer one higher (R112). -/
def State.afterRet (s : State) : State :=
  (s.setReg spReg (s.sp + 1)).jumpTo (Memory.read s.sp.toNat s.mem)

section
variable {s : State} {n : Byte} {r : Reg}

/-- An instruction without operand bytes lies at `pc` as soon as its opcode byte does. -/
theorem codeAt_of_operandBytes_nil {i : Instr} (hi : i.operandBytes = []) (hpc : s.pc ≤ 255)
    (hop : Memory.read s.pc s.mem = opc i.mnemonic) : s.CodeAt i := by
  intro k b hb
  rw [encodeWith, hi] at hb
  obtain ⟨rfl, rfl⟩ : k = 0 ∧ opc i.mnemonic = b := by
    simpa [List.getElem?_singleton] using hb
  exact ⟨Nat.lt_succ_of_le hpc, hop⟩

/-! ### RET -/

theorem exec_ret_of_sp_ne_max (hsp : s.sp ≠ 0xFF#8) : exec .ret s = .next s.afterRet := by
  rw [exec, execRet, memRead_byte]
  simp only [incSp, if_neg hsp]
  rfl

theorem exec_ret_of_sp_eq_max (hsp : s.sp = 0xFF#8) :
    exec .ret s = .next (s.raise (.stackUnderflow s.pc)) := by
  rw [exec, execRet, memRead_byte]
  simp only [incSp, if_pos hsp]
  rfl

/-! ### CALL -/

theorem exec_call_of_sp_ne_zero (hn : Names n r) (hsp : s.sp ≠ 0x00#8) (hra : s.pc + 2 < 256) :
    exec (.call n) s = .next (s.afterCall r) := by
  have hbyte : returnAddress s = .ok (BitVec.ofNat 8 (s.pc + 2)) := if_pos hra
  rw [exec, execCall, withReg_of_eq s hn]
  simp only [decSp, if_neg hsp, hbyte, memWrite_byte]
  rfl

theorem State.afterCall_reg (s : State) (r q : Reg) :
    (s.afterCall r).reg q = if q = spReg then s.pushSlot else s.reg q :=
  State.reg_setReg ..

@[simp] theorem State.afterCall_sp (s : State) (r : Reg) : (s.afterCall r).sp = s.pushSlot :=
  State.reg_setReg_same ..

/-- The byte at the new stack pointer is the return address. -/
theorem State.afterCall_read_sp (s : State) (r : Reg) :
    Memory.read (s.afterCall r).sp.toNat (s.afterCall r).mem = BitVec.ofNat 8 (s.pc + 2) := by
  rw [State.afterCall_sp]
  exact Memory.read_write_same ..

/-! ### RET after CALL -/

/-- CALL then RET restores all eight registers. -/
theorem State.afterRet_afterCall_reg (s : State) (r q : Reg) : (s.afterCall r).afterRet.reg q = s.reg q := by
  rw [State.afterRet, State.jumpTo_reg, State.reg_setReg, State.afterCall_reg, State.afterCall_sp,
    pushSlot_add_one]
  split
  next h => rw [h]; rfl
  next => rfl

/-- RET takes back the return address, which is a byte. -/
theorem State.afterRet_afterCall_pc (r : Reg) (hra : s.pc + 2 < 256) :
    (s.afterCall r).afterRet.pc = s.pc + 2 := by
  rw [State.afterRet, State.jumpTo_pc, State.afterCall_read_sp]
  exact (BitVec.toNat_ofNat ..).trans (Nat.mod_eq_of_lt hra)

theorem exec_ret_afterCall (r : Reg) (hsp : s.sp ≠ 0x00#8) :
    exec .ret (s.afterCall r) = .next (s.afterCall r).afterRet := by
  refine exec_ret_of_sp_ne_max ?_
  rw [State.afterCall_sp]
  exact pushSlot_ne_max hsp

end

/-- Settles O34: the effect is `State.afterRet`, and the step needs no byte but the opcode; after
`State.afterCall` the byte popped is the return address, and the increment undoes the decrement. -/
theorem retPopsItsTarget : Obligations.RetPopsItsTarget := by
  unfold Obligations.RetPopsItsTarget
  refine ⟨rfl, fun _ => exec_ret_of_sp_ne_max, fun _ => exec_ret_of_sp_eq_max,
    fun s hrun hpc hop => step_of_codeAt hrun (codeAt_of_operandBytes_nil rfl hpc hop),
    fun s n r hn hsp hra => ?_⟩
  exact ⟨_, _, exec_call_of_sp_ne_zero hn hsp hra, exec_ret_afterCall r hsp,
    State.afterRet_afterCall_pc r hra, s.afterRet_afterCall_reg r⟩

end Sys2Proof.Machine
end

section
/-! PROOFS. R113 and R115, JMP and JNE: the jump to a legal register's content, which JNE takes where the
Equal flag is clear; the register byte is checked first, taken or not. -/

namespace Sys2Proof.Machine

section
variable {s : State} {n : Byte} {r : Reg}

theorem jmp_registerFaults : RegisterFaults .jmp :=
  fun s _ hn => withReg_of_ge s hn _

theorem jne_registerFaults : RegisterFaults .jne :=
  fun s _ hn => withReg_of_ge s hn _

theorem equalSet_eq_true : s.equalSet = true ↔ s.fl &&& flagEqual ≠ 0x00#8 :=
  decide_eq_true_iff

theorem equalSet_eq_false : s.equalSet = false ↔ s.fl &&& flagEqual = 0x00#8 := by
  rw [← Bool.not_eq_true, equalSet_eq_true, not_not]

theorem exec_jne_of_equal_clear (hn : Names n r) (hfl : s.fl &&& flagEqual = 0x00#8) :
    exec (.jne n) s = .next (s.jumpTo (s.reg r)) := by
  rw [exec, execJne, equalSet_eq_false.mpr hfl]
  exact jumpIf_of_eq true s hn

theorem exec_jne_of_equal_set (hn : Names n r) (hfl : s.fl &&& flagEqual ≠ 0x00#8) :
    exec (.jne n) s = .next (s.advance 2) := by
  rw [exec, execJne, equalSet_eq_true.mpr hfl]
  exact jumpIf_of_eq false s hn

end

/-- Settles O35: the effect by `exec_jmp_of_names`; the two faults are those of the register check and of
the operand fetch. -/
theorem jmpJumpsToTheRegister : Obligations.JmpJumpsToTheRegister := by
  unfold Obligations.JmpJumpsToTheRegister
  exact ⟨fun _ => rfl, fun s _ _ hn => exec_jmp_of_names s hn, jmp_registerFaults,
    operandFetchFaults_length .JMP⟩

/-- Settles O37: the two effects by the Equal flag, `exec_jne_of_equal_clear` and `exec_jne_of_equal_set`;
the two faults are those of the register check and of the operand fetch. -/
theorem jneJumpsIfNotEqual : Obligations.JneJumpsIfNotEqual := by
  unfold Obligations.JneJumpsIfNotEqual
  exact ⟨fun _ => rfl, fun _ _ _ hn => ⟨exec_jne_of_equal_clear hn, exec_jne_of_equal_set hn⟩,
    jne_registerFaults, operandFetchFaults_length .JNE⟩

end Sys2Proof.Machine
end

section
/-! PROOFS. R160 and R166, the way into a run: `construct` answers the reset state, which no step leads
back to, and `run` starts the loop, whose steps are taken in `Running` only. -/

namespace Sys2Proof.Machine

/-- `construct` has one result: in `Running` it is refused, elsewhere it answers the reset state. -/
theorem hostConstruct_next {s t : State} (h : hostConstruct s = .next t) : t = State.reset := by
  unfold hostConstruct at h
  split at h
  · cases h
  all_goals
    cases h
    rfl

theorem hostRun_of_ready {s : State} (hrun : s.run = .ready) : hostRun s = .next (s.setRun .running) := by
  rw [hostRun, hrun]

/-- No step leads to `Ready`: it answers in `Running` only, and its next state runs on, halts or faults. -/
theorem step_next_run_ne_ready {s t : State} (h : step s = .next t) : t.run ≠ .ready := by
  intro hready
  obtain ⟨u, hu, hends⟩ := step_answers (step_next h).1
  cases hu.symm.trans h
  rw [hready] at hends
  obtain hrunning | ⟨hhalted, -⟩ | ⟨c, hfaulted⟩ := hends
  · cases hrunning
  · cases hhalted
  · cases hfaulted

/-- Settles O57: `step_answers` gives the steps while `Running`, `step_next` that there is none after. -/
theorem runStartsTheLoop : Obligations.RunStartsTheLoop := by
  unfold Obligations.RunStartsTheLoop
  refine ⟨fun s => hostRun_of_ready, fun s hrun => ?_, fun s t c hterminal h => ?_⟩
  · obtain ⟨t, ht, -⟩ := step_answers hrun
    exact ⟨t, ht⟩
  · have hrun : s.run = .running := (step_next h).1
    simp [hrun] at hterminal

/-- Settles O1: the values are those `State.reset` is defined with, register by register; that nothing
else leads there is `hostConstruct_next` and `step_next_run_ne_ready`. -/
theorem resetLeavesTheStatedValues : Obligations.ResetLeavesTheStatedValues := by
  unfold Obligations.ResetLeavesTheStatedValues
  have hregs : ∀ r : Reg, r ≠ 7 → State.reset.reg r = 0x00#8 := by decide
  exact ⟨fun _ => rfl, hregs, rfl, rfl, rfl, rfl, rfl, fun _ _ => hostConstruct_next,
    fun _ _ => step_next_run_ne_ready⟩

end Sys2Proof.Machine
end

section
/-! PROOFS. What an instruction can do, said once: it finishes in the state its effect describes, or it
raises the first cause whose condition holds. Every whole-machine rule below is a case analysis of
`Finishes` and `Raises`, which `exec_next_iff` ties to `exec`. -/

namespace Sys2Proof.Machine

/-- The first register operand byte that names no register, in offset order (spec/60_exceptions.md R140). -/
def firstBadOperand (i : Instr) : Option Byte := (regOperands i).find? fun b => decide (8 ≤ b.toNat)

/-- `Finishes s i t`: from `s` the instruction `i` completes, and leaves `t`. -/
inductive Finishes (s : State) : Instr → State → Prop
  | ldi {n : Byte} {r : Reg} (hn : Names n r) (imm : Byte) : Finishes s (.ldi n imm) ((s.setReg r imm).advance 3)
  | prn {n : Byte} {r : Reg} (hn : Names n r) : Finishes s (.prn n) ((s.emit (s.reg r)).advance 2)
  | hlt : Finishes s .hlt (s.setRun .halted)
  | add {a b : Byte} {ra rb : Reg} (ha : Names a ra) (hb : Names b rb) :
    Finishes s (.add a b)
      ((s.setReg ra (BitVec.ofNat 8 (((s.reg ra).toNat + (s.reg rb).toNat) % 256))).advance 3)
  | mul {a b : Byte} {ra rb : Reg} (ha : Names a ra) (hb : Names b rb) :
    Finishes s (.mul a b)
      ((s.setReg ra (BitVec.ofNat 8 (((s.reg ra).toNat * (s.reg rb).toNat) % 256))).advance 3)
  | push {n : Byte} {r : Reg} (hn : Names n r) (hsp : s.sp ≠ 0x00#8) : Finishes s (.push n) (s.afterPush r)
  | pop {n : Byte} {r : Reg} (hn : Names n r) (hsp : (s.popInto r).sp ≠ 0xFF#8) :
    Finishes s (.pop n) (s.afterPop r)
  | call {n : Byte} {r : Reg} (hn : Names n r) (hsp : s.sp ≠ 0x00#8) (hra : s.pc + 2 < 256) :
    Finishes s (.call n) (s.afterCall r)
  | ret (hsp : s.sp ≠ 0xFF#8) : Finishes s .ret s.afterRet
  | cmp {a b : Byte} {ra rb : Reg} (ha : Names a ra) (hb : Names b rb) :
    Finishes s (.cmp a b) ((s.setFl (compareFlags (s.reg ra) (s.reg rb))).advance 3)
  | jmp {n : Byte} {r : Reg} (hn : Names n r) : Finishes s (.jmp n) (s.jumpTo (s.reg r))
  | jeq {n : Byte} {r : Reg} (hn : Names n r) :
    Finishes s (.jeq n) (if s.equalSet then s.jumpTo (s.reg r) else s.advance 2)
  | jne {n : Byte} {r : Reg} (hn : Names n r) :
    Finishes s (.jne n) (if !s.equalSet then s.jumpTo (s.reg r) else s.advance 2)

/-- `Raises s i c`: from `s` the instruction `i` raises `c`, the first in the order of
spec/60_exceptions.md R140 whose condition holds. -/
inductive Raises (s : State) : Instr → Cause → Prop
  | register {i : Instr} {n : Byte} (hbad : firstBadOperand i = some n) :
    Raises s i (.addressOutOfRange s.pc .register n.toNat)
  | push {n : Byte} {r : Reg} (hn : Names n r) (hsp : s.sp = 0x00#8) : Raises s (.push n) (.stackOverflow s.pc)
  | call {n : Byte} {r : Reg} (hn : Names n r) (hsp : s.sp = 0x00#8) : Raises s (.call n) (.stackOverflow s.pc)
  | returnAddress {n : Byte} {r : Reg} (hn : Names n r) (hsp : s.sp ≠ 0x00#8) (hra : 256 ≤ s.pc + 2) :
    Raises s (.call n) (.addressOutOfRange s.pc .memory (s.pc + 2))
  | pop {n : Byte} {r : Reg} (hn : Names n r) (hsp : (s.popInto r).sp = 0xFF#8) :
    Raises s (.pop n) (.stackUnderflow s.pc)
  | ret (hsp : s.sp = 0xFF#8) : Raises s .ret (.stackUnderflow s.pc)

/-! ### The register check -/

/-- The byte found is an operand of the instruction, and names no register. -/
theorem firstBadOperand_some {i : Instr} {n : Byte} (h : firstBadOperand i = some n) :
    n ∈ regOperands i ∧ 8 ≤ n.toNat :=
  ⟨List.mem_of_find?_eq_some h, of_decide_eq_true (List.find?_some h :)⟩

/-- Where no byte is found, every register operand names a register. -/
theorem names_of_firstBadOperand_none {i : Instr} (h : firstBadOperand i = none) {n : Byte}
    (hn : n ∈ regOperands i) : ∃ r, Names n r := by
  have hlegal : ¬ 8 ≤ n.toNat := fun hge => List.find?_eq_none.mp h n hn (decide_eq_true hge)
  exact ⟨⟨n.toNat, Nat.not_le.mp hlegal⟩, rfl⟩

section
variable {s : State} {n m : Byte}

theorem withReg_of_find_bad (h : [n].find? (fun b => decide (8 ≤ b.toNat)) = some m)
    (effect : Reg → Except Cause State) :
    withReg s n effect = .next (s.raise (.addressOutOfRange s.pc .register m.toNat)) := by
  obtain ⟨hge, rfl⟩ : 8 ≤ n.toNat ∧ n = m := by simpa using h
  exact withReg_of_ge s hge effect

theorem withRegs_of_find_bad {a b : Byte} (h : [a, b].find? (fun b => decide (8 ≤ b.toNat)) = some m)
    (effect : Reg → Reg → Except Cause State) :
    withRegs s a b effect = .next (s.raise (.addressOutOfRange s.pc .register m.toNat)) := by
  by_cases ha : 8 ≤ a.toNat
  · obtain rfl : a = m := by simpa [ha] using h
    exact withRegs_of_first s ha effect
  · obtain ⟨hb, rfl⟩ : 8 ≤ b.toNat ∧ b = m := by simpa [ha] using h
    exact withRegs_of_second s (ra := ⟨a.toNat, Nat.not_le.mp ha⟩) rfl hb effect

/-- The register check comes before every other condition of an instruction. -/
theorem exec_of_firstBadOperand {i : Instr} (h : firstBadOperand i = some n) :
    exec i s = .next (s.raise (.addressOutOfRange s.pc .register n.toNat)) := by
  cases i with
  | hlt | ret => cases h
  | add a b | mul a b | cmp a b => exact withRegs_of_find_bad h _
  | ldi d imm => exact withReg_of_find_bad h _
  | prn d | push d | pop d | call d | jmp d | jeq d | jne d => exact withReg_of_find_bad h _

end

/-! ### The causes of CALL -/

section
variable {s : State} {n : Byte} {r : Reg}

theorem exec_call_of_sp_eq_zero (hn : Names n r) (hsp : s.sp = 0x00#8) :
    exec (.call n) s = .next (s.raise (.stackOverflow s.pc)) := by
  rw [exec, execCall, withReg_of_eq s hn]
  simp only [decSp, if_pos hsp]
  rfl

theorem exec_call_of_return_address_too_high (hn : Names n r) (hsp : s.sp ≠ 0x00#8) (hra : 256 ≤ s.pc + 2) :
    exec (.call n) s = .next (s.raise (.addressOutOfRange s.pc .memory (s.pc + 2))) := by
  have hfault : returnAddress s = .error (.addressOutOfRange s.pc .memory (s.pc + 2)) :=
    if_neg (Nat.not_lt.mpr hra)
  rw [exec, execCall, withReg_of_eq s hn]
  simp only [decSp, if_neg hsp, hfault]
  rfl

end

/-! ### `exec` is these two relations -/

section
variable {s t : State} {i : Instr} {c : Cause}

theorem exec_of_finishes (h : Finishes s i t) : exec i s = .next t := by
  cases h with
  | ldi hn imm => exact exec_ldi_of_names s hn imm
  | prn hn => exact exec_prn_of_names s hn
  | hlt => rfl
  | add ha hb => exact withRegs_of_eq s ha hb _
  | mul ha hb => exact withRegs_of_eq s ha hb _
  | push hn hsp => exact exec_push_of_sp_ne_zero hn hsp
  | pop hn hsp => exact exec_pop_of_sp_ne_max hn hsp
  | call hn hsp hra => exact exec_call_of_sp_ne_zero hn hsp hra
  | ret hsp => exact exec_ret_of_sp_ne_max hsp
  | cmp ha hb => exact compareUnder_of_eq cmpMode s ha hb
  | jmp hn => exact exec_jmp_of_names s hn
  | jeq hn => exact jumpIf_of_eq s.equalSet s hn
  | jne hn => exact jumpIf_of_eq (!s.equalSet) s hn

theorem exec_of_raises (h : Raises s i c) : exec i s = .next (s.raise c) := by
  cases h with
  | register hbad => exact exec_of_firstBadOperand hbad
  | push hn hsp => exact exec_push_of_sp_eq_zero hn hsp
  | call hn hsp => exact exec_call_of_sp_eq_zero hn hsp
  | returnAddress hn hsp hra => exact exec_call_of_return_address_too_high hn hsp hra
  | pop hn hsp => exact exec_pop_of_sp_eq_max hn hsp
  | ret hsp => exact exec_ret_of_sp_eq_max hsp

/-- With legal operands, what is left to decide is the edge of the stack and CALL's return address. -/
theorem finishes_or_raises (s : State) (i : Instr) : (∃ t, Finishes s i t) ∨ ∃ c, Raises s i c := by
  cases hbad : firstBadOperand i with
  | some n => exact .inr ⟨_, .register hbad⟩
  | none =>
    have hnames : ∀ n ∈ regOperands i, ∃ r, Names n r := fun _ => names_of_firstBadOperand_none hbad
    cases i with
    | hlt => exact .inl ⟨_, .hlt⟩
    | ret =>
      by_cases hsp : s.sp = 0xFF#8
      · exact .inr ⟨_, .ret hsp⟩
      · exact .inl ⟨_, .ret hsp⟩
    | ldi n imm =>
      obtain ⟨r, hn⟩ := hnames n List.mem_cons_self
      exact .inl ⟨_, .ldi hn imm⟩
    | prn n | jmp n | jeq n | jne n =>
      obtain ⟨r, hn⟩ := hnames n List.mem_cons_self
      exact .inl ⟨_, by constructor; exact hn⟩
    | add a b | mul a b | cmp a b =>
      obtain ⟨ra, ha⟩ := hnames a List.mem_cons_self
      obtain ⟨rb, hb⟩ := hnames b (List.mem_cons_of_mem a List.mem_cons_self)
      exact .inl ⟨_, by constructor <;> assumption⟩
    | push n =>
      obtain ⟨r, hn⟩ := hnames n List.mem_cons_self
      by_cases hsp : s.sp = 0x00#8
      · exact .inr ⟨_, .push hn hsp⟩
      · exact .inl ⟨_, .push hn hsp⟩
    | pop n =>
      obtain ⟨r, hn⟩ := hnames n List.mem_cons_self
      by_cases hsp : (s.popInto r).sp = 0xFF#8
      · exact .inr ⟨_, .pop hn hsp⟩
      · exact .inl ⟨_, .pop hn hsp⟩
    | call n =>
      obtain ⟨r, hn⟩ := hnames n List.mem_cons_self
      by_cases hsp : s.sp = 0x00#8
      · exact .inr ⟨_, .call hn hsp⟩
      by_cases hra : s.pc + 2 < 256
      · exact .inl ⟨_, .call hn hsp hra⟩
      · exact .inr ⟨_, .returnAddress hn hsp (Nat.not_lt.mp hra)⟩

/-- Everything an instruction can do, and nothing else. -/
theorem exec_next_iff : exec i s = .next t ↔ Finishes s i t ∨ ∃ c, Raises s i c ∧ t = s.raise c := by
  constructor
  · intro h
    obtain ⟨u, hu⟩ | ⟨c, hc⟩ := finishes_or_raises s i
    · obtain rfl : u = t := Host.Outcome.next.inj ((exec_of_finishes hu).symm.trans h)
      exact .inl hu
    · exact .inr ⟨c, hc, Host.Outcome.next.inj (h.symm.trans (exec_of_raises hc))⟩
  · rintro (h | ⟨c, h, rfl⟩)
    · exact exec_of_finishes h
    · exact exec_of_raises h

end

end Sys2Proof.Machine
end

section
/-! PROOFS. R51 to R56, decoding and encoding are inverse: what the decoder took from the head of the bytes
is the encoding of the instruction it answers, so that instruction lies inside memory. -/

namespace Sys2Proof

/-- Settles O9: an injective map's lookup finds the mnemonic, and the operand bytes are taken in the order
they were written (`decodeWith_encodeWith`). -/
theorem decodeOfEncodeIsTheInstruction : Obligations.DecodeOfEncodeIsTheInstruction := by
  unfold Obligations.DecodeOfEncodeIsTheInstruction
  exact fun _ hinj i rest => decodeWith_encodeWith hinj i rest

section
variable {code : Mnemonic → Byte} {op : Byte} {m : Mnemonic} {bytes rest : List Byte} {i : Instr}

/-- Whatever the map, the row found has the byte looked up. -/
theorem code_of_lookupWith (h : lookupWith code op = some m) : code m = op :=
  eq_of_beq (List.find?_some h :)

theorem takeOne_ok {k : Byte → Instr} (h : takeOne k bytes = .ok (i, rest)) :
    ∃ b, i = k b ∧ bytes = b :: rest := by
  match bytes with
  | b :: bs =>
    cases h
    exact ⟨b, rfl, rfl⟩

theorem takeTwo_ok {k : Byte → Byte → Instr} (h : takeTwo k bytes = .ok (i, rest)) :
    ∃ a b, i = k a b ∧ bytes = a :: b :: rest := by
  match bytes with
  | a :: b :: bs =>
    cases h
    exact ⟨a, b, rfl, rfl⟩

/-- What is taken for a mnemonic is an instruction of that mnemonic and its operand bytes. -/
theorem takeOperands_ok (h : takeOperands m bytes = .ok (i, rest)) :
    i.mnemonic = m ∧ i.operandBytes ++ rest = bytes := by
  cases m with
  | HLT | RET =>
    cases h
    exact ⟨rfl, rfl⟩
  | PRN | PUSH | POP | CALL | JMP | JEQ | JNE =>
    obtain ⟨b, rfl, rfl⟩ := takeOne_ok h
    exact ⟨rfl, rfl⟩
  | LDI | ADD | MUL | CMP =>
    obtain ⟨a, b, rfl, rfl⟩ := takeTwo_ok h
    exact ⟨rfl, rfl⟩

theorem encodeWith_of_decodeWith (h : decodeWith code bytes = .ok (i, rest)) :
    encodeWith code i ++ rest = bytes := by
  match bytes with
  | op :: tail =>
    rw [decodeWith] at h
    split at h
    · cases h
    next m hm =>
      obtain ⟨rfl, hoperands⟩ := takeOperands_ok h
      rw [encodeWith, List.cons_append, hoperands, code_of_lookupWith hm]

theorem encodeWith_length (code : Mnemonic → Byte) (i : Instr) :
    (encodeWith code i).length = i.mnemonic.length := by
  cases i <;> rfl

end

/-- Settles O10: the opcode byte by `code_of_lookupWith`, the operand bytes by `takeOperands_ok`. -/
theorem encodeOfDecodeIsTheBytes : Obligations.EncodeOfDecodeIsTheBytes := by
  unfold Obligations.EncodeOfDecodeIsTheBytes
  exact fun _ _ _ _ => encodeWith_of_decodeWith

theorem Mnemonic.length_pos (m : Mnemonic) : 0 < m.length := by
  cases m <;> decide

namespace Machine

/-- A fetched instruction ends inside memory: its bytes are among those the fetch has read. -/
theorem fetchInstrWith_fits {code : Mnemonic → Byte} {s : State} {i : Instr}
    (h : fetchInstrWith code s = .ok i) : s.pc + i.mnemonic.length ≤ Config.memSize := by
  rw [fetchInstrWith] at h
  split at h
  next j rest hdecode =>
    cases h
    have hbytes : (encodeWith code i ++ rest).length = (fetchBytes 3 s.pc s.mem).length :=
      congrArg List.length (encodeWith_of_decodeWith hdecode)
    rw [List.length_append, encodeWith_length, fetchBytes_length] at hbytes
    have hpos : 0 < i.mnemonic.length := i.mnemonic.length_pos
    omega
  · cases h

end Machine

end Sys2Proof
end

section
/-! PROOFS. D2, the flag layout is unobservable: a step from states that differ only in `fl`, with the same
Equal flag, leads to two such states, and so does every number of steps. -/

namespace Sys2Proof.Machine

/-- The two flags bytes agree in the one flag that is ever tested. -/
def SameEqual (f g : Byte) : Prop := f &&& flagEqual = g &&& flagEqual

section
variable {s t : State} {f : Byte}

/-- CMP writes the same flags byte in both states or raises the same cause; every other instruction
keeps `fl`, whichever it is. -/
theorem exec_of_sameEqual {i : Instr} (hf : SameEqual f s.fl) (h : exec i s = .next t) :
    ∃ g, exec i (s.setFl f) = .next (t.setFl g) ∧ SameEqual g t.fl := by
  by_cases hcmp : ∀ a b, i ≠ .cmp a b
  · refine ⟨f, ?_, (exec_fl_of_not_cmp hcmp h).symm ▸ hf⟩
    rw [exec_setFl hcmp (.inr hf), h, resultSetFl_next]
  · obtain ⟨a, b, rfl⟩ : ∃ a b, i = .cmp a b := by simpa using hcmp
    obtain hdone | ⟨c, hraise, rfl⟩ := exec_next_iff.mp h
    · cases hdone with
      | cmp ha hb => exact ⟨_, (exec_cmp_setFl ha hb).trans h, rfl⟩
    · cases hraise with
      | register hbad => exact ⟨f, exec_of_firstBadOperand hbad, hf⟩

theorem step_of_sameEqual (hf : SameEqual f s.fl) (h : step s = .next t) :
    ∃ g, step (s.setFl f) = .next (t.setFl g) ∧ SameEqual g t.fl := by
  have hfetch : fetchInstr (s.setFl f) = fetchInstr s := fetchInstrWith_congr opc rfl rfl
  obtain ⟨hrun, ⟨i, hi, hexec⟩ | ⟨c, hc, rfl⟩⟩ := step_next h
  · obtain ⟨g, hg, hsame⟩ := exec_of_sameEqual hf hexec
    have hstep : step (s.setFl f) = exec i (s.setFl f) := stepWith_of_fetch hrun (hfetch.trans hi)
    exact ⟨g, hstep.trans hg, hsame⟩
  · exact ⟨f, stepWith_of_fetch_error hrun (hfetch.trans hc), hf⟩

end

/-- A run of `k + 1` steps that answers is a step that answers, followed by a run of `k` steps. -/
theorem run_succ_next {M : Host.Core} {k : Nat} {s t : M.State} :
    M.run (k + 1) s = .next t ↔ ∃ u, M.step s = .next u ∧ M.run k u = .next t := by
  rw [Host.Core.run]
  cases M.step s <;> simp

theorem run_of_sameEqual {s t : State} {f : Byte} {k : Nat} (hf : SameEqual f s.fl)
    (h : Host.Core.run core k s = .next t) :
    ∃ g, Host.Core.run core k (s.setFl f) = .next (t.setFl g) ∧ SameEqual g t.fl := by
  induction k generalizing s f with
  | zero =>
    cases h
    exact ⟨f, rfl, hf⟩
  | succ k ih =>
    obtain ⟨u, hstep, hrest⟩ := run_succ_next.mp h
    obtain ⟨g, hg, hsame⟩ := step_of_sameEqual hf hstep
    obtain ⟨g', hg', hsame'⟩ := ih hsame hrest
    exact ⟨g', run_succ_next.mpr ⟨_, hg, hg'⟩, hsame'⟩

/-- Settles O26: agreement in all but `fl`, and there in the Equal flag, is kept by every step
(`step_of_sameEqual`); by induction on the number of steps it holds along the two runs. -/
theorem flagLayoutIsUnobservable : Obligations.FlagLayoutIsUnobservable := by
  unfold Obligations.FlagLayoutIsUnobservable
  exact fun _ _ _ _ hf h => run_of_sameEqual hf h

end Sys2Proof.Machine
end

section
/-! PROOFS. The state after an instruction, one field at a time (10_state.md sections 2 to 6): which
instruction changes it, and to what. -/

namespace Sys2Proof.Machine

section
variable {s t : State} {i : Instr} {r : Reg}

/-- A register whose number is not listed is none of those that are. -/
theorem reg_ne_of_not_mem {q : Reg} {l : List Nat} (hr : r.val ∉ l) (hq : q.val ∈ l) : r ≠ q :=
  fun e => hr (e ▸ hq)

/-- The table of 10_state.md R13, the registers written. -/
theorem Finishes.reg_of_not_written (h : Finishes s i t) (hr : r.val ∉ regWrites i) : t.reg r = s.reg r := by
  cases h with
  | ldi hn imm => exact State.reg_setReg_ne _ _ _ (reg_ne_of_not_mem hr (hn ▸ List.mem_cons_self))
  | add ha hb | mul ha hb => exact State.reg_setReg_ne _ _ _ (reg_ne_of_not_mem hr (ha ▸ List.mem_cons_self))
  | push hn hsp | call hn hsp hra | ret hsp =>
    exact State.reg_setReg_ne _ _ _ (reg_ne_of_not_mem hr List.mem_cons_self)
  | pop hn hsp =>
    have hne7 : r ≠ spReg := reg_ne_of_not_mem hr (List.mem_cons_of_mem _ List.mem_cons_self)
    exact (State.reg_setReg_ne _ _ _ hne7).trans
      (State.reg_setReg_ne _ _ _ (reg_ne_of_not_mem hr (hn ▸ List.mem_cons_self)))
  | jeq hn | jne hn => split <;> rfl
  | _ => rfl

/-- Only the push of PUSH and CALL writes memory, and only where the stack pointer can be decremented. -/
theorem Finishes.mem_cases (h : Finishes s i t) :
    t.mem = s.mem ∨ (∃ n, i = .push n ∨ i = .call n) ∧ s.sp ≠ 0x00#8 ∧
      ∃ v, t.mem = Memory.write s.pushSlot.toNat v s.mem := by
  cases h with
  | push hn hsp => exact .inr ⟨⟨_, .inl rfl⟩, hsp, _, rfl⟩
  | call hn hsp hra => exact .inr ⟨⟨_, .inr rfl⟩, hsp, _, rfl⟩
  | jeq hn | jne hn => left; split <;> rfl
  | _ => exact .inl rfl

/-- The three ways an instruction moves `pc`. -/
theorem Finishes.pc_cases (h : Finishes s i t) :
    t.pc = s.pc ∨ t.pc = s.pc + i.mnemonic.length ∨ ∃ v : Byte, t.pc = v.toNat := by
  cases h with
  | hlt => exact .inl rfl
  | call hn hsp hra => exact .inr (.inr ⟨_, rfl⟩)
  | ret hsp => exact .inr (.inr ⟨_, rfl⟩)
  | jmp hn => exact .inr (.inr ⟨_, rfl⟩)
  | jeq hn | jne hn =>
    split
    · exact .inr (.inr ⟨_, rfl⟩)
    · exact .inr (.inl rfl)
  | _ => exact .inr (.inl rfl)

/-- The flags byte stays, or is what a compare gives. -/
theorem Finishes.fl_cases (h : Finishes s i t) : t.fl = s.fl ∨ ∃ left right, t.fl = compareFlags left right := by
  cases h with
  | cmp ha hb => exact .inr ⟨_, _, rfl⟩
  | jeq hn | jne hn => left; split <;> rfl
  | _ => exact .inl rfl

/-- The output stays, or PRN appends its register. -/
theorem Finishes.out_cases (h : Finishes s i t) :
    t.out = s.out ∨ ∃ n r, i = .prn n ∧ Names n r ∧ t.out = s.out ++ [s.reg r] := by
  cases h with
  | prn hn => exact .inr ⟨_, _, rfl, hn, rfl⟩
  | jeq hn | jne hn => left; split <;> rfl
  | _ => exact .inl rfl

/-- The run state stays, or HLT sets it. -/
theorem Finishes.run_cases (h : Finishes s i t) : t.run = s.run ∨ t.run = .halted := by
  cases h with
  | hlt => exact .inr rfl
  | jeq hn | jne hn => left; split <;> rfl
  | _ => exact .inl rfl

/-! ### The same with the fault, which changes `run` only -/

theorem exec_reg_of_not_written (h : exec i s = .next t) (hr : r.val ∉ regWrites i) : t.reg r = s.reg r := by
  obtain hdone | ⟨c, -, rfl⟩ := exec_next_iff.mp h
  · exact hdone.reg_of_not_written hr
  · rfl

theorem exec_mem_cases (h : exec i s = .next t) :
    t.mem = s.mem ∨ (∃ n, i = .push n ∨ i = .call n) ∧ s.sp ≠ 0x00#8 ∧
      ∃ v, t.mem = Memory.write s.pushSlot.toNat v s.mem := by
  obtain hdone | ⟨c, -, rfl⟩ := exec_next_iff.mp h
  · exact hdone.mem_cases
  · exact .inl rfl

theorem exec_fl_cases (h : exec i s = .next t) : t.fl = s.fl ∨ ∃ left right, t.fl = compareFlags left right := by
  obtain hdone | ⟨c, -, rfl⟩ := exec_next_iff.mp h
  · exact hdone.fl_cases
  · exact .inl rfl

theorem exec_out_cases (h : exec i s = .next t) :
    t.out = s.out ∨ ∃ n r, i = .prn n ∧ Names n r ∧ t.out = s.out ++ [s.reg r] := by
  obtain hdone | ⟨c, -, rfl⟩ := exec_next_iff.mp h
  · exact hdone.out_cases
  · exact .inl rfl

end

end Sys2Proof.Machine
end

section
/-! PROOFS. The invariant of reachable states: no instruction leaves the memory's canonical form, `pc`
moves on by the length of an instruction that lies inside memory or to a byte, and CMP writes a legal
flags byte. -/

namespace Sys2Proof.Machine

section
variable {s t : State} {i : Instr}

theorem compareFlags_legal (left right : Byte) : flagsLegal (compareFlags left right) = true := by
  obtain ⟨-, h⟩ | ⟨-, h⟩ | ⟨-, h⟩ := compareFlags_cases left right <;> simp [h, flagsLegal]

theorem Finishes.inv (h : Finishes s i t) (hfits : s.pc + i.mnemonic.length ≤ 256) (hinv : s.Inv) : t.Inv := by
  obtain ⟨hmem, hpc, hfl⟩ := hinv
  refine ⟨?_, ?_, ?_⟩
  · obtain hkeep | ⟨-, -, v, hwrite⟩ := h.mem_cases
    · rw [hkeep, hmem]
    · rw [hwrite, Memory.wf_write (byte_lt_memSize s.pushSlot) v hmem]
  · obtain hkeep | hnext | ⟨v, hbyte⟩ := h.pc_cases
    · exact hkeep.trans_le hpc
    · exact hnext.trans_le hfits
    · exact hbyte.trans_le v.isLt.le
  · obtain hkeep | ⟨left, right, hcmp⟩ := h.fl_cases
    · rw [hkeep, hfl]
    · rw [hcmp, compareFlags_legal]

theorem stepWith_keeps_inv {code : Mnemonic → Byte} (hinv : s.Inv) (h : stepWith code s = .next t) : t.Inv := by
  obtain ⟨-, ⟨i, hfetch, hexec⟩ | ⟨c, -, rfl⟩⟩ := stepWith_next h
  · obtain hdone | ⟨c, -, rfl⟩ := exec_next_iff.mp hexec
    · exact hdone.inv (fetchInstrWith_fits hfetch) hinv
    · exact hinv
  · exact hinv

end

/-- Settles O52: a fault changes `run` only, and an instruction that finishes keeps the invariant because
it was fetched from inside memory (`Finishes.inv`, `fetchInstrWith_fits`). -/
theorem stepKeepsTheInvariant : Obligations.StepKeepsTheInvariant := by
  unfold Obligations.StepKeepsTheInvariant
  exact ⟨fun _ _ => stepWith_keeps_inv, fun _ _ _ => stepWith_keeps_inv⟩

end Sys2Proof.Machine
end

section
/-! PROOFS. 40_dispatcher.md sections 1 and 4, the run state: which steps are taken and where they lead, and
that a run, being deterministic, ends in at most one way. -/

namespace Sys2Proof.Machine

/-! ### One step -/

/-- Settles O2: the fetch answers what the decoder answers on the bytes at `pc`, and the step is `exec` of
that. -/
theorem stepRunsTheDecodedInstruction : Obligations.StepRunsTheDecodedInstruction := by
  unfold Obligations.StepRunsTheDecodedInstruction
  intro s i rest hrun hdecode
  have hdecodeWith : decodeWith opc (fetchBytes 3 s.pc s.mem) = .ok (i, rest) := hdecode
  have hfetch : fetchInstr s = .ok i := by rw [fetchInstr, fetchInstrWith, hdecodeWith]
  exact stepWith_of_fetch hrun hfetch

theorem step_of_stop {s : State} {f : Fault} (h : s.run.stop = some f) : step s = .fault f := by
  rw [step, stepWith, h]

/-- Settles O4: `RunState.stop` names the stop of each run state but `Running`. -/
theorem noStepOutsideRunning : Obligations.NoStepOutsideRunning := by
  unfold Obligations.NoStepOutsideRunning
  exact fun s => ⟨fun h => step_of_stop (congrArg RunState.stop h),
    fun h => step_of_stop (congrArg RunState.stop h), fun c h => step_of_stop (congrArg RunState.stop h)⟩

/-- Settles O5: a step that answers was taken in `Running` (`step_next`), and there the only next state is
the one `step_answers` gives. -/
theorem runStateTransitions : Obligations.RunStateTransitions := by
  unfold Obligations.RunStateTransitions
  intro s t h
  have hrun : s.run = .running := (step_next h).1
  obtain ⟨u, hu, hends⟩ := step_answers hrun
  obtain rfl : u = t := Host.Outcome.next.inj (hu.symm.trans h)
  exact ⟨hrun, hends⟩

/-- Settles O6: an instruction finishes or raises a cause, and either is a next state. -/
theorem everyInstructionAndStepAnswers : Obligations.EveryInstructionAndStepAnswers := by
  unfold Obligations.EveryInstructionAndStepAnswers
  refine ⟨fun i s => ?_, fun s hrun => ?_⟩
  · obtain ⟨t, hdone⟩ | ⟨c, hraise⟩ := finishes_or_raises s i
    · exact ⟨t, exec_of_finishes hdone⟩
    · exact ⟨_, exec_of_raises hraise⟩
  · obtain ⟨t, ht, -⟩ := step_answers hrun
    exact ⟨t, ht⟩

/-! ### How a run ends -/

section
variable {s t u : State}

/-- A run of `k + j` steps goes on for `j` steps from where `k` steps lead. -/
theorem run_add_of_run {M : Host.Core} {k : Nat} {s t : M.State} (h : M.run k s = .next t) (j : Nat) :
    M.run (k + j) s = M.run j t := by
  induction k generalizing s with
  | zero =>
    cases h
    rw [Nat.zero_add]
  | succ k ih =>
    obtain ⟨u, hstep, hrest⟩ := run_succ_next.mp h
    rw [Nat.succ_add, Host.Core.run, hstep]
    exact ih hrest

/-- Outside `Running` the only run is the one of no steps. -/
theorem run_of_not_running {k : Nat} (hrun : s.run ≠ .running) (h : Host.Core.run core k s = .next t) : k = 0 := by
  cases k with
  | zero => rfl
  | succ k =>
    obtain ⟨u, hstep, -⟩ := run_succ_next.mp h
    exact absurd (step_next hstep).1 hrun

/-- No run goes past a state that is not `Running`. -/
theorem run_le_of_end {k j : Nat} (ht : Host.Core.run core k s = .next t) (hend : t.run ≠ .running)
    (hu : Host.Core.run core j s = .next u) : j ≤ k := by
  by_contra hlt
  obtain ⟨d, rfl⟩ := Nat.exists_eq_add_of_lt (Nat.not_le.mp hlt)
  rw [Nat.add_assoc, run_add_of_run ht] at hu
  exact absurd (run_of_not_running hend hu) (Nat.succ_ne_zero d)

/-- A run that leaves `Running` does so in one state. -/
theorem run_end_unique {k j : Nat} (ht : Host.Core.run core k s = .next t) (hendt : t.run ≠ .running)
    (hu : Host.Core.run core j s = .next u) (hendu : u.run ≠ .running) : t = u := by
  obtain rfl : k = j := Nat.le_antisymm (run_le_of_end hu hendu ht) (run_le_of_end ht hendt hu)
  exact Host.Outcome.next.inj (ht.symm.trans hu)

/-- A run that never ends leads to `Running` after every number of steps, and to nothing else. -/
theorem run_running_of_neverEnds (hnever : s.NeverEnds) {k : Nat} (h : Host.Core.run core k s = .next t) :
    t.run = .running := by
  obtain ⟨u, hu, hrun⟩ := hnever k
  obtain rfl : u = t := Host.Outcome.next.inj (hu.symm.trans h)
  exact hrun

/-- If no run of `s` halts or faults, then `s` runs for ever. -/
theorem ends_or_neverEnds (hrun : s.run = .running) :
    (∃ t, s.EndsNormally t) ∨ (∃ c, s.EndsFaulted c) ∨ s.NeverEnds := by
  by_cases hhalt : ∃ t, s.EndsNormally t
  · exact .inl hhalt
  by_cases hfault : ∃ c, s.EndsFaulted c
  · exact .inr (.inl hfault)
  · exact .inr (.inr (neverEnds_of_no_end hrun fun k t h =>
      ⟨fun ht => hhalt ⟨t, k, h, ht⟩, fun c ht => hfault ⟨c, k, t, h, ht⟩⟩))

theorem endsFaulted_unique {c d : Cause} (hc : s.EndsFaulted c) (hd : s.EndsFaulted d) : c = d := by
  obtain ⟨k, t, ht, htc⟩ := hc
  obtain ⟨j, u, hu, hud⟩ := hd
  obtain rfl : t = u := run_end_unique ht (by simp [htc]) hu (by simp [hud])
  exact RunState.faulted.inj (htc.symm.trans hud)

end

/-- Settles O8: that one of the three holds is `ends_or_neverEnds`; that only one does, and in one way,
follows from `run_end_unique`, since a run does not go past its end. -/
theorem aRunEndsInExactlyOneWay : Obligations.ARunEndsInExactlyOneWay := by
  unfold Obligations.ARunEndsInExactlyOneWay
  refine fun s hrun => ⟨ends_or_neverEnds hrun, fun t u ⟨k, ht, htrun⟩ ⟨j, hu, hurun⟩ => ?_,
    fun c d => endsFaulted_unique, fun t c ⟨k, ht, htrun⟩ ⟨j, u, hu, hurun⟩ => ?_,
    fun hnever => ⟨fun t ⟨k, ht, htrun⟩ => ?_, fun c ⟨k, t, ht, htrun⟩ => ?_⟩⟩
  · exact run_end_unique ht (by simp [htrun]) hu (by simp [hurun])
  · obtain rfl : t = u := run_end_unique ht (by simp [htrun]) hu (by simp [hurun])
    simp [htrun] at hurun
  · simp [run_running_of_neverEnds hnever ht] at htrun
  · simp [run_running_of_neverEnds hnever ht] at htrun

end Sys2Proof.Machine
end

section
/-! PROOFS. R55 and R60, the step and the opcode map: what is fetched follows the map, what is executed does
not depend on it, and an instruction has to end inside memory. -/

namespace Sys2Proof.Machine

/-- Settles O11: each clause is what `stepWith` does with the fetch's answer, for any injective map; at
`opc` the two machines are the same record. -/
theorem stepUnderEveryOpcodeMap : Obligations.StepUnderEveryOpcodeMap := by
  unfold Obligations.StepUnderEveryOpcodeMap
  refine ⟨rfl, fun code hinj => ⟨fun s t hrun h => hrun (stepWith_next h).1,
    operandFetchFaultsWith_length hinj, fun s hrun => ⟨fun hout => ?_, fun hin hop => ?_, fun i hcode => ?_⟩⟩⟩
  · exact stepWith_of_fetch_error hrun (fetchInstrWith_outside code hout)
  · exact stepWith_of_fetch_error hrun (fetchInstrWith_of_not_opcode hin hop)
  · exact stepWith_of_fetch hrun (fetchInstrWith_of_codeAtWith hinj hcode)

/-- Settles O12: injectivity by `opc_injective`; the values are the map's own rows. -/
theorem configuredOpcodeMap : Obligations.ConfiguredOpcodeMap := by
  unfold Obligations.ConfiguredOpcodeMap
  exact ⟨opc_injective, rfl⟩

/-- Settles O13: each word is the encoding of its instruction, which `decodeWith_encodeWith` decodes. -/
theorem writtenOutWordsDecode : Obligations.WrittenOutWordsDecode := by
  unfold Obligations.WrittenOutWordsDecode
  have hdecode : ∀ i, decode (encode i ++ []) = .ok (i, []) := fun i => decodeWith_encodeWith opc_injective i []
  exact ⟨hdecode (.ldi 0 8), hdecode (.add 0 1), hdecode (.push 1), hdecode (.call 2), hdecode .ret, hdecode .hlt⟩

/-- Settles O15: an instruction that crosses the end misses an operand byte; one without operand bytes lies
at `pc` as soon as its opcode does. -/
theorem instructionsLieInsideMemory : Obligations.InstructionsLieInsideMemory := by
  unfold Obligations.InstructionsLieInsideMemory
  refine ⟨operandFetchFaults_length, fun s hrun hpc => ⟨fun hop => ?_, fun hop => ?_⟩⟩
  · exact step_of_codeAt hrun (codeAt_of_operandBytes_nil (i := .hlt) rfl hpc.le (hpc ▸ hop))
  · exact step_of_codeAt hrun (codeAt_of_operandBytes_nil (i := .ret) rfl hpc.le (hpc ▸ hop))

/-- Settles O39: HLT's meaning is `setRun .halted`, and its one byte lies at `pc` with its opcode. -/
theorem hltHaltsAndChangesNothingElse : Obligations.HltHaltsAndChangesNothingElse := by
  unfold Obligations.HltHaltsAndChangesNothingElse
  exact ⟨rfl, fun s => exec_of_finishes .hlt, fun s hrun hpc hop =>
    (step_of_codeAt hrun (codeAt_of_operandBytes_nil (i := .hlt) rfl hpc hop)).trans (exec_of_finishes .hlt)⟩

end Sys2Proof.Machine
end

section
/-! PROOFS. R93 and R97, CMP under its two readings: the comparison of two bytes gives one of three masks. -/

namespace Sys2Proof.Machine

section
variable {left right : Byte}

theorem compareFlags_of_eq (h : left.toNat = right.toNat) : compareFlags left right = flagEqual :=
  if_pos (BitVec.eq_of_toNat_eq h)

theorem compareFlags_of_lt (h : left.toNat < right.toNat) : compareFlags left right = flagLess := by
  have hne : left ≠ right := fun e => h.ne (congrArg BitVec.toNat e)
  rw [compareFlags, if_neg hne, if_pos h]

theorem compareFlags_of_gt (h : right.toNat < left.toNat) : compareFlags left right = flagGreater := by
  have hne : left ≠ right := fun e => h.ne' (congrArg BitVec.toNat e)
  rw [compareFlags, if_neg hne, if_neg h.asymm]

/-- No comparison gives 0. -/
theorem compareFlags_ne_zero (left right : Byte) : compareFlags left right ≠ 0x00#8 := by
  have hE : flagEqual ≠ 0x00#8 := by decide
  have hLG : flagLess ≠ 0x00#8 ∧ flagGreater ≠ 0x00#8 := by
    obtain ⟨hl, hg⟩ | ⟨hl, hg⟩ := flags_layout <;> rw [hl, hg] <;> decide
  obtain ⟨-, h⟩ | ⟨-, h⟩ | ⟨-, h⟩ := compareFlags_cases left right
  · exact h ▸ hE
  · exact h ▸ hLG.1
  · exact h ▸ hLG.2

end

/-- A compare of legal operands, once the flag it sets is known. -/
theorem compareUnder_of_flags (mode : Config.CmpMode) (s : State) {a b f : Byte} {ra rb : Reg} (ha : Names a ra)
    (hb : Names b rb)
    (hf : compareFlags (cmpOperands mode s a b ra rb).1 (cmpOperands mode s a b ra rb).2 = f) :
    compareUnder mode a b s = .next { s with fl := f, pc := s.pc + 3 } := by
  rw [compareUnder_of_eq mode s ha hb, hf]
  rfl

/-- Settles O22: the three masks by the three unsigned cases of `compareFlags`; the faults are those of the
two register checks and of the operand fetch, and the masks those of `flags_layout`. -/
theorem cmpSetsExactlyOneFlag : Obligations.CmpSetsExactlyOneFlag := by
  unfold Obligations.CmpSetsExactlyOneFlag
  exact ⟨fun _ _ => rfl, fun s a b ra rb ha hb =>
      ⟨fun h => compareUnder_of_flags .values s ha hb (compareFlags_of_eq h),
        fun h => compareUnder_of_flags .values s ha hb (compareFlags_of_lt h),
        fun h => compareUnder_of_flags .values s ha hb (compareFlags_of_gt h)⟩,
    twoRegisterFaults_of_withRegs fun _ _ _ => ⟨_, rfl⟩, operandFetchFaults_length .CMP, rfl, flags_layout⟩

/-- A bad operand byte is reported before either reading compares anything. -/
theorem compareUnder_of_bad_operand (mode mode' : Config.CmpMode) (s : State) {a b : Byte}
    (h : 8 ≤ a.toNat ∨ 8 ≤ b.toNat) : compareUnder mode a b s = compareUnder mode' a b s := by
  by_cases ha : 8 ≤ a.toNat
  · exact (withRegs_of_first s ha _).trans (withRegs_of_first s ha _).symm
  · have hb : 8 ≤ b.toNat := h.resolve_left ha
    have hra : a.toNat = (⟨a.toNat, Nat.not_le.mp ha⟩ : Reg).val := rfl
    exact (withRegs_of_second s hra hb _).trans (withRegs_of_second s hra hb _).symm

/-- Settles O23: under `rawOperands` the bytes compared are the operand bytes; the register check before
the comparison is the same for both readings. -/
theorem rawOperandCompareIsFixedByTheText : Obligations.RawOperandCompareIsFixedByTheText := by
  unfold Obligations.RawOperandCompareIsFixedByTheText
  exact ⟨rfl, fun s a b ra rb ha hb =>
      ⟨fun h => compareUnder_of_flags .rawOperands s ha hb (compareFlags_of_eq h),
        fun h => compareUnder_of_flags .rawOperands s ha hb (compareFlags_of_lt h),
        fun h => compareUnder_of_flags .rawOperands s ha hb (compareFlags_of_gt h)⟩,
    fun s _ _ h => compareUnder_of_bad_operand .rawOperands cmpMode s h⟩

end Sys2Proof.Machine
end

section
/-! PROOFS. R114 and R118, JEQ and the decision table of the two conditional jumps. -/

namespace Sys2Proof.Machine

section
variable {s : State} {n : Byte} {r : Reg}

theorem jeq_registerFaults : RegisterFaults .jeq :=
  fun s _ hn => withReg_of_ge s hn _

theorem exec_jeq_of_equal_set (hn : Names n r) (hfl : s.fl &&& flagEqual ≠ 0x00#8) :
    exec (.jeq n) s = .next (s.jumpTo (s.reg r)) := by
  rw [exec, execJeq, equalSet_eq_true.mpr hfl]
  exact jumpIf_of_eq true s hn

theorem exec_jeq_of_equal_clear (hn : Names n r) (hfl : s.fl &&& flagEqual = 0x00#8) :
    exec (.jeq n) s = .next (s.advance 2) := by
  rw [exec, execJeq, equalSet_eq_false.mpr hfl]
  exact jumpIf_of_eq false s hn

/-- Of the flags byte's four values, those without the Equal flag. -/
theorem equal_clear_of_other_flag {fl : Byte} (h : fl = 0x00#8 ∨ fl = flagLess ∨ fl = flagGreater) :
    fl &&& flagEqual = 0x00#8 := by
  have hmasks : flagLess &&& flagEqual = 0x00#8 ∧ flagGreater &&& flagEqual = 0x00#8 := by
    obtain ⟨hl, hg⟩ | ⟨hl, hg⟩ := flags_layout <;> rw [hl, hg] <;> decide
  obtain rfl | rfl | rfl := h
  · decide
  · exact hmasks.1
  · exact hmasks.2

end

/-- Settles O36: the two effects by the Equal flag; the two faults are those of the register check and of
the operand fetch. -/
theorem jeqJumpsIfEqual : Obligations.JeqJumpsIfEqual := by
  unfold Obligations.JeqJumpsIfEqual
  exact ⟨fun _ => rfl, fun _ _ _ hn => ⟨exec_jeq_of_equal_set hn, exec_jeq_of_equal_clear hn⟩,
    jeq_registerFaults, operandFetchFaults_length .JEQ⟩

/-- Settles O38: JEQ and JNE test the one Equal flag, each for the other outcome; of the four values of
`fl` only the mask of Equal has it. -/
theorem conditionalJumpDecisionTable : Obligations.ConditionalJumpDecisionTable := by
  unfold Obligations.ConditionalJumpDecisionTable
  intro s n r hn
  have hset (h : s.fl &&& flagEqual ≠ 0x00#8) := And.intro (exec_jeq_of_equal_set hn h) (exec_jne_of_equal_set hn h)
  have hclear (h : s.fl &&& flagEqual = 0x00#8) :=
    And.intro (exec_jeq_of_equal_clear hn h) (exec_jne_of_equal_clear hn h)
  refine ⟨fun h => hclear (equal_clear_of_other_flag h), fun h => hset (by rw [h]; decide), ?_⟩
  by_cases h : s.fl &&& flagEqual = 0x00#8
  · exact .inr (hclear h)
  · exact .inl (hset h)

end Sys2Proof.Machine
end

section
/-! PROOFS. R105, R41 and R111, the stack: register 7 as explicit operand, PUSH followed by POP or by the
next fetch, and CALL. -/

namespace Sys2Proof.Machine

section
variable {s : State} {n : Byte} {r : Reg}

/-- The byte PUSH stores, read at its own address. -/
theorem State.afterPush_read_pushSlot (s : State) (r : Reg) :
    Memory.read s.pushSlot.toNat (s.afterPush r).mem = (s.afterPush r).reg r := by
  rw [← State.afterPush_read_sp, State.afterPush_sp]

/-- A pushed register other than 7 is not changed by the push. -/
theorem State.afterPush_reg_of_ne {q : Reg} (hq : q ≠ spReg) : (s.afterPush r).reg q = s.reg q := by
  rw [State.afterPush_reg, if_neg hq]

theorem State.afterCall_reg_of_ne {q : Reg} (hq : q ≠ spReg) : (s.afterCall r).reg q = s.reg q := by
  rw [State.afterCall_reg, if_neg hq]

theorem State.afterCall_read_other {a : Nat} (ha : a ≠ (s.afterCall r).sp.toNat) :
    Memory.read a (s.afterCall r).mem = Memory.read a s.mem := by
  rw [State.afterCall_sp] at ha
  exact Memory.read_write_other ha ..

/-- CALL's target is the register as read after the decrement. -/
theorem State.afterCall_pc (s : State) (r : Reg) : (s.afterCall r).pc = ((s.afterCall r).reg r).toNat := rfl

theorem call_registerFaults : RegisterFaults .call :=
  fun s _ hn => withReg_of_ge s hn _

end

/-- Settles O30: PUSH and CALL read register 7 after the decrement (`State.afterPush_reg`,
`State.afterCall_reg`), and POP increments it after the write (`State.afterPop_spReg`). -/
theorem registerSevenSeesTheImplicitUpdate : Obligations.RegisterSevenSeesTheImplicitUpdate := by
  unfold Obligations.RegisterSevenSeesTheImplicitUpdate
  refine ⟨fun s n hn hsp => ⟨_, exec_push_of_sp_ne_zero hn hsp, s.afterPush_sp 7, ?_⟩,
    fun s n hn hsp hra => ⟨_, exec_call_of_sp_ne_zero hn hsp hra, s.afterCall_sp 7, ?_⟩,
    fun s n hn hbyte => ⟨_, exec_pop_of_sp_ne_max hn (s.popInto_spReg_sp.trans_ne hbyte), ?_⟩⟩
  · exact (s.afterPush_read_pushSlot 7).trans (s.afterPush_sp 7)
  · exact (s.afterCall_pc 7).trans (congrArg BitVec.toNat (s.afterCall_sp 7))
  · rw [State.afterPop_spReg]
    exact State.reg_setReg_same s spReg _

/-- Settles O31: POP's write of the pushed byte changes nothing (`State.popInto_afterPush`), and its
increment undoes the decrement. -/
theorem pushThenPopRestoresEveryRegister : Obligations.PushThenPopRestoresEveryRegister := by
  unfold Obligations.PushThenPopRestoresEveryRegister
  exact fun s _ r hn hsp => ⟨_, _, exec_push_of_sp_ne_zero hn hsp, exec_pop_afterPush hn hsp,
    s.afterPop_afterPush_reg r, rfl⟩

/-- Settles O32: the fetch reads the memory PUSH has left, where the cell of the push holds `x[n]`. -/
theorem fetchSeesThePushedByte : Obligations.FetchSeesThePushedByte := by
  unfold Obligations.FetchSeesThePushedByte
  refine fun s n r hn hr hsp => ⟨_, exec_push_of_sp_ne_zero hn hsp, fun k hk hcell => ?_⟩
  rw [fetchBytes_getElem?, hcell, if_pos ⟨hk, byte_lt_memSize s.pushSlot⟩, State.afterPush_read_pushSlot,
    State.afterPush_reg_of_ne hr]

/-- Settles O33: the effect is `State.afterCall`, read register by register and cell by cell; the faults are
those of the stack's edge, of the return address, of the register check and of the operand fetch. -/
theorem callPushesTheReturnAddress : Obligations.CallPushesTheReturnAddress := by
  unfold Obligations.CallPushesTheReturnAddress
  refine ⟨fun _ => rfl, fun s n r hn hsp hra => ⟨_, exec_call_of_sp_ne_zero hn hsp hra, ?_,
      fun _ => State.afterCall_reg_of_ne, ?_, fun _ => State.afterCall_read_other, s.afterCall_pc r, rfl, rfl, rfl⟩,
    fun _ _ _ => exec_call_of_sp_eq_zero, fun _ _ _ => exec_call_of_return_address_too_high,
    call_registerFaults, operandFetchFaults_length .CALL⟩
  · rw [State.afterCall_sp]
    exact pushSlot_toNat hsp
  · rw [State.afterCall_read_sp]
    exact (BitVec.toNat_ofNat ..).trans (Nat.mod_eq_of_lt hra)

end Sys2Proof.Machine
end

section
/-! PROOFS. 10_state.md R15 and 60_exceptions.md, the new `pc` of an instruction that completes, and the
causes of one that does not: a case analysis of `Finishes` and of `Raises`. -/

namespace Sys2Proof.Machine

/-- Settles O40: with no fault on record the instruction has finished, and the state it leaves shows the
new `pc`. -/
theorem programCounterAfterEachInstruction : Obligations.ProgramCounterAfterEachInstruction := by
  unfold Obligations.ProgramCounterAfterEachInstruction
  intro i s t h hok
  obtain hdone | ⟨c, -, rfl⟩ := exec_next_iff.mp h
  · cases hdone with
    | jmp hn => exact ⟨_, hn, rfl⟩
    | call hn hsp hra => exact ⟨_, hn, rfl⟩
    | jeq hn => exact ⟨_, hn, by split <;> rfl⟩
    | jne hn => exact ⟨_, hn, by cases s.equalSet <;> rfl⟩
    | _ => rfl
  · exact absurd rfl (hok c)

/-! ### The causes -/

/-- An instruction executed in `Running` that ends in a fault has raised its cause, in the state before. -/
theorem raises_of_exec_faulted {s t : State} {i : Instr} {c : Cause} (hrun : s.run = .running)
    (h : exec i s = .next t) (hfault : t.run = .faulted c) : Raises s i c ∧ t = s.raise c := by
  obtain hdone | ⟨d, hraise, rfl⟩ := exec_next_iff.mp h
  · obtain hkeep | hhalt := hdone.run_cases
    · simp [hkeep, hrun] at hfault
    · simp [hhalt] at hfault
  · obtain rfl : d = c := RunState.faulted.inj hfault
    exact ⟨hraise, rfl⟩

/-- The stack pointer POP increments: the popped byte where the operand is register 7. -/
theorem State.popInto_sp_eq_max {s : State} {n : Byte} {r : Reg} (hn : Names n r) (hmax : (s.popInto r).sp = 0xFF#8) :
    (n.toNat ≠ 7 ∧ s.sp = 0xFF#8) ∨ (n.toNat = 7 ∧ Memory.read s.sp.toNat s.mem = 0xFF#8) := by
  by_cases hr : r = spReg
  · subst hr
    exact .inr ⟨hn, s.popInto_spReg_sp.symm.trans hmax⟩
  · exact .inl ⟨fun h7 => hr (Fin.ext (hn.symm.trans h7)), (State.popInto_sp_of_ne hr).symm.trans hmax⟩

/-- Settles O41: the table's rows are the constructors of `Raises`. -/
theorem faultsOfEachInstruction : Obligations.FaultsOfEachInstruction := by
  unfold Obligations.FaultsOfEachInstruction
  intro i s t c hrun h hfault
  cases (raises_of_exec_faulted hrun h hfault).1 with
  | register hbad =>
    obtain ⟨hmem, hge⟩ := firstBadOperand_some hbad
    exact .inl ⟨_, hmem, hge, rfl⟩
  | push hn hsp => exact .inr (.inl ⟨_, .inl rfl, hsp, rfl⟩)
  | call hn hsp => exact .inr (.inl ⟨_, .inr rfl, hsp, rfl⟩)
  | returnAddress hn hsp hra => exact .inr (.inr (.inl ⟨_, rfl, by omega, rfl⟩))
  | ret hsp => exact .inr (.inr (.inr (.inl ⟨rfl, hsp, rfl⟩)))
  | pop hn hsp => exact .inr (.inr (.inr (.inr ⟨_, rfl, rfl, State.popInto_sp_eq_max hn hsp⟩)))

theorem regByteOk_eq_false {b : Byte} : regByteOk b = false ↔ 8 ≤ b.toNat :=
  decide_eq_false_iff_not.trans Nat.not_lt

/-- An instruction is ill-formed exactly when one of its register operands names no register. -/
theorem wellFormed_eq_false {i : Instr} : i.wellFormed = false ↔ ∃ n, firstBadOperand i = some n := by
  have hall : i.wellFormed = (regOperands i).all regByteOk := by
    cases i <;> simp [Instr.wellFormed, regOperands]
  rw [hall, ← Option.isSome_iff_exists, firstBadOperand, List.find?_isSome]
  simp [regByteOk_eq_false]

/-- Settles O42: an ill-formed instruction is stopped by its first bad operand byte, and no other cause of
an instruction reports a register. -/
theorem illFormedInstructionsFaultByRegister : Obligations.IllFormedInstructionsFaultByRegister := by
  unfold Obligations.IllFormedInstructionsFaultByRegister
  intro i s t hrun h
  rw [wellFormed_eq_false]
  constructor
  · rintro ⟨n, hbad⟩
    cases (exec_of_firstBadOperand hbad).symm.trans h
    exact ⟨_, rfl⟩
  · rintro ⟨index, hfault⟩
    cases (raises_of_exec_faulted hrun h hfault).1 with
    | register hbad => exact ⟨_, hbad⟩

/-- Settles O43: each clause is the fault of one stage, shown without a premise on the stages after it. -/
theorem faultPriority : Obligations.FaultPriority := by
  unfold Obligations.FaultPriority
  exact ⟨fun s hrun hout => stepWith_of_fetch_error hrun (fetchInstr_outside hout),
    fun s hrun hin hop => stepWith_of_fetch_error hrun (fetchInstrWith_of_not_opcode hin hop),
    operandFetchFaults_length, fun _ _ _ => exec_of_firstBadOperand, fun _ _ _ => exec_call_of_sp_eq_zero⟩

/-- Settles O44: a step faults by its fetch or by a cause its instruction raised, and both are taken in the
state before. -/
theorem faultsAreTakenBeforeAnyWrite : Obligations.FaultsAreTakenBeforeAnyWrite := by
  unfold Obligations.FaultsAreTakenBeforeAnyWrite
  intro s t c h hfault
  obtain ⟨hrun, ⟨i, -, hexec⟩ | ⟨d, -, rfl⟩⟩ := step_next h
  · exact (raises_of_exec_faulted hrun hexec hfault).2
  · obtain rfl : d = c := RunState.faulted.inj hfault
    rfl

theorem decodeCause_ne_unsupported (pc : Nat) (e : DecodeError) (tag : AluTag) :
    decodeCause pc e ≠ .unsupportedAluOperation tag := by
  cases e <;> simp [decodeCause]

/-- Settles O24: the ALU's refusal is its definition; of the causes a step can take, neither those of the
fetch nor those of an instruction are this one. -/
theorem unsupportedAluOperationIsUnreachable : Obligations.UnsupportedAluOperationIsUnreachable := by
  unfold Obligations.UnsupportedAluOperationIsUnreachable
  refine ⟨fun _ _ _ _ => rfl, fun s t tag h hfault => ?_⟩
  obtain ⟨hrun, ⟨i, -, hexec⟩ | ⟨c, hc, rfl⟩⟩ := step_next h
  · cases (raises_of_exec_faulted hrun hexec hfault).1
  · obtain ⟨e, rfl⟩ := fetchInstr_error hc
    exact decodeCause_ne_unsupported s.pc e tag (RunState.faulted.inj hfault)

end Sys2Proof.Machine
end

section
/-! PROOFS. Frames: what an instruction leaves unchanged, each field by the lemma that names the
instructions that change it. -/

namespace Sys2Proof.Machine

section
variable {s t : State} {i : Instr}

theorem exec_read_of_not_store (hstore : ∀ n, i ≠ .push n ∧ i ≠ .call n) (h : exec i s = .next t) (a : Nat) :
    Memory.read a t.mem = Memory.read a s.mem := by
  obtain hkeep | ⟨⟨n, hn⟩, -⟩ := exec_mem_cases h
  · rw [hkeep]
  · exact absurd hn (not_or.mpr (hstore n))

/-- Every cell but the pushed one reads as before, whatever the instruction. -/
theorem exec_read_of_ne_pushSlot (h : exec i s = .next t) {a : Nat} (ha : a ≠ s.pushSlot.toNat) :
    Memory.read a t.mem = Memory.read a s.mem := by
  obtain hkeep | ⟨-, -, v, hwrite⟩ := exec_mem_cases h
  · rw [hkeep]
  · rw [hwrite, Memory.read_write_other ha]

theorem exec_out_of_not_prn (hprn : ∀ n, i ≠ .prn n) (h : exec i s = .next t) : t.out = s.out := by
  obtain hkeep | ⟨n, r, hn, -⟩ := exec_out_cases h
  · exact hkeep
  · exact absurd hn (hprn n)

theorem exec_run_of_not_hlt (hhlt : i ≠ .hlt) (h : exec i s = .next t) :
    t.run = s.run ∨ ∃ c, t.run = .faulted c := by
  obtain ⟨u, hu, hrun⟩ := completes_exec s hhlt
  obtain rfl : u = t := Host.Outcome.next.inj (hu.symm.trans h)
  exact hrun.imp_right fun ⟨c, hc⟩ => ⟨c, hc ▸ rfl⟩

/-- An instruction that is none of CMP, PRN and HLT. -/
def Plain (i : Instr) : Prop := (∀ a b, i ≠ .cmp a b) ∧ (∀ n, i ≠ .prn n) ∧ i ≠ .hlt

/-- The flags, the output and, but for a fault, the run state belong to CMP, PRN and HLT. -/
theorem exec_frame_of_plain (hplain : Plain i) (h : exec i s = .next t) :
    t.fl = s.fl ∧ t.out = s.out ∧ (t.run = s.run ∨ ∃ c, t.run = .faulted c) := by
  obtain ⟨hcmp, hprn, hhlt⟩ := hplain
  exact ⟨exec_fl_of_not_cmp hcmp h, exec_out_of_not_prn hprn h, exec_run_of_not_hlt hhlt h⟩

end

/-- Settles O47: the three write the register `d` and are neither stores nor CMP, PRN or HLT. -/
theorem frameOfRegisterWriters : Obligations.FrameOfRegisterWriters := by
  unfold Obligations.FrameOfRegisterWriters
  intro i d s t hform h
  have hkind : regWrites i = [d.toNat] ∧ (∀ n, i ≠ .push n ∧ i ≠ .call n) ∧ Plain i := by
    obtain ⟨imm, rfl⟩ | ⟨b, rfl⟩ | ⟨b, rfl⟩ := hform <;> simp [regWrites, Plain]
  obtain ⟨hwrites, hstore, hplain⟩ := hkind
  refine ⟨fun r hr => exec_reg_of_not_written h ?_, exec_read_of_not_store hstore h, exec_frame_of_plain hplain h⟩
  rw [hwrites, List.mem_singleton]
  exact hr

/-- Settles O48: the six write no register and are no stores; the flags, the output and the run state are
each left by all but the one instruction excepted. -/
theorem frameOfNonWriters : Obligations.FrameOfNonWriters := by
  unfold Obligations.FrameOfNonWriters
  intro i s t h hform
  have hkind : regWrites i = [] ∧ ∀ n, i ≠ .push n ∧ i ≠ .call n := by
    obtain ⟨n, rfl⟩ | ⟨a, b, rfl⟩ | rfl | ⟨n, rfl | rfl | rfl⟩ := hform <;> simp [regWrites]
  obtain ⟨hwrites, hstore⟩ := hkind
  refine ⟨fun r => exec_reg_of_not_written h ?_, exec_read_of_not_store hstore h,
    fun hcmp => exec_fl_of_not_cmp hcmp h, fun hprn => exec_out_of_not_prn hprn h,
    fun hhlt => exec_run_of_not_hlt hhlt h⟩
  rw [hwrites]
  exact List.not_mem_nil

/-- Settles O49: both write register 7 only, and memory only in the cell of the push. -/
theorem frameOfPushAndCall : Obligations.FrameOfPushAndCall := by
  unfold Obligations.FrameOfPushAndCall
  intro i n s t hform h
  have hkind : regWrites i = [7] ∧ Plain i := by
    obtain rfl | rfl := hform <;> simp [regWrites, Plain]
  obtain ⟨hwrites, hplain⟩ := hkind
  refine ⟨fun r hr => exec_reg_of_not_written h ?_, fun a => exec_read_of_ne_pushSlot h,
    exec_frame_of_plain hplain h⟩
  rw [hwrites, List.mem_singleton]
  exact Fin.val_ne_of_ne hr

/-- Settles O50: POP writes its operand's register and register 7, RET register 7 only, and neither is a
store. -/
theorem frameOfPopAndRet : Obligations.FrameOfPopAndRet := by
  unfold Obligations.FrameOfPopAndRet
  refine ⟨fun n s t h => ⟨fun r hr7 hrn => exec_reg_of_not_written h ?_,
      exec_read_of_not_store (by simp) h, exec_frame_of_plain (by simp [Plain]) h⟩,
    fun s t h => ⟨fun r hr7 => exec_reg_of_not_written h ?_,
      exec_read_of_not_store (by simp) h, exec_frame_of_plain (by simp [Plain]) h⟩⟩
  · simp only [regWrites, List.mem_cons, List.not_mem_nil, or_false, not_or]
    exact ⟨hrn, Fin.val_ne_of_ne hr7⟩
  · rw [regWrites, List.mem_singleton]
    exact Fin.val_ne_of_ne hr7

/-! ### The same rules for a step -/

/-- Settles O51: a fault changes no cell, and of the instructions only PUSH and CALL do, where the stack
pointer is one above the cell (`exec_mem_cases`, `pushSlot_toNat`). -/
theorem onlyPushAndCallStore : Obligations.OnlyPushAndCallStore := by
  unfold Obligations.OnlyPushAndCallStore
  intro s t a h hchanged
  obtain ⟨-, ⟨i, hfetch, hexec⟩ | ⟨c, -, rfl⟩⟩ := step_next h
  · obtain hkeep | ⟨⟨n, hform⟩, hsp, -⟩ := exec_mem_cases hexec
    · exact absurd (congrArg (Memory.read a) hkeep) hchanged
    · have hcell : a = s.pushSlot.toNat := by
        by_contra hne
        exact hchanged (exec_read_of_ne_pushSlot hexec hne)
      refine ⟨hcell ▸ pushSlot_toNat hsp, n, ?_⟩
      obtain rfl | rfl := hform
      · exact .inl hfetch
      · exact .inr hfetch
  · exact absurd rfl hchanged

/-- Settles O18: a fault keeps the output, and of the instructions only PRN changes it. -/
theorem outputOnlyGrowsByPrn : Obligations.OutputOnlyGrowsByPrn := by
  unfold Obligations.OutputOnlyGrowsByPrn
  intro s t h
  obtain ⟨-, ⟨i, hfetch, hexec⟩ | ⟨c, -, rfl⟩⟩ := step_next h
  · obtain hkeep | ⟨n, r, rfl, hn, hout⟩ := exec_out_cases hexec
    · exact .inl hkeep
    · exact .inr ⟨n, r, hfetch, hn, hout⟩
  · exact .inl rfl

/-- Settles O27: a step leaves `fl` as it was or writes what a compare gives, which is never 0. -/
theorem flagsNeverReturnToZero : Obligations.FlagsNeverReturnToZero := by
  unfold Obligations.FlagsNeverReturnToZero
  intro s t hfl h
  obtain ⟨-, ⟨i, -, hexec⟩ | ⟨c, -, rfl⟩⟩ := step_next h
  · obtain hkeep | ⟨left, right, hcmp⟩ := exec_fl_cases hexec
    · exact hkeep.trans_ne hfl
    · exact hcmp.trans_ne (compareFlags_ne_zero left right)
  · exact hfl

end Sys2Proof.Machine
end

section
/-! PROOFS. What an instruction does not read: the output history (10_state.md R21), and the registers
outside its row of the table (R13). -/

namespace Sys2Proof.Machine

/-! ### The output history -/

/-- `s` with bytes emitted earlier. -/
def State.withEarlierOut (s : State) (earlier : List Byte) : State := { s with out := earlier ++ s.out }

section
variable {s t : State} {i : Instr} {c : Cause} (earlier : List Byte)

theorem State.emit_withEarlierOut (v : Byte) :
    (s.withEarlierOut earlier).emit v = (s.emit v).withEarlierOut earlier := by
  simp [State.emit, State.withEarlierOut]

theorem Finishes.withEarlierOut (h : Finishes s i t) :
    Finishes (s.withEarlierOut earlier) i (t.withEarlierOut earlier) := by
  cases h with
  | ldi hn imm => exact .ldi hn imm
  | prn hn =>
    have hdone := Finishes.prn (s := s.withEarlierOut earlier) hn
    rw [State.emit_withEarlierOut] at hdone
    exact hdone
  | hlt => exact .hlt
  | add ha hb => exact .add ha hb
  | mul ha hb => exact .mul ha hb
  | push hn hsp => exact .push hn hsp
  | pop hn hsp => exact .pop hn hsp
  | call hn hsp hra => exact .call hn hsp hra
  | ret hsp => exact .ret hsp
  | cmp ha hb => exact .cmp ha hb
  | jmp hn => exact .jmp hn
  | jeq hn =>
    rw [apply_ite (State.withEarlierOut · earlier)]
    exact .jeq hn
  | jne hn =>
    rw [apply_ite (State.withEarlierOut · earlier)]
    exact .jne hn

theorem Raises.withEarlierOut (h : Raises s i c) : Raises (s.withEarlierOut earlier) i c := by
  cases h with
  | register hbad => exact .register hbad
  | push hn hsp => exact .push hn hsp
  | call hn hsp => exact .call hn hsp
  | returnAddress hn hsp hra => exact .returnAddress hn hsp hra
  | pop hn hsp => exact .pop hn hsp
  | ret hsp => exact .ret hsp

theorem exec_withEarlierOut (h : exec i s = .next t) :
    exec i (s.withEarlierOut earlier) = .next (t.withEarlierOut earlier) := by
  obtain hdone | ⟨c, hraise, rfl⟩ := exec_next_iff.mp h
  · exact exec_of_finishes (hdone.withEarlierOut earlier)
  · exact exec_of_raises (hraise.withEarlierOut earlier)

end

/-- Settles O19: neither the fetch nor the effect nor the cause of an instruction depends on the output. -/
theorem outputHistoryIsNotRead : Obligations.OutputHistoryIsNotRead := by
  unfold Obligations.OutputHistoryIsNotRead
  intro s t earlier h
  have hfetch : fetchInstr (s.withEarlierOut earlier) = fetchInstr s := fetchInstrWith_congr opc rfl rfl
  obtain ⟨hrun, ⟨i, hi, hexec⟩ | ⟨c, hc, rfl⟩⟩ := step_next h
  · have hstep : step (s.withEarlierOut earlier) = exec i (s.withEarlierOut earlier) :=
      stepWith_of_fetch hrun (hfetch.trans hi)
    exact hstep.trans (exec_withEarlierOut earlier hexec)
  · exact stepWith_of_fetch_error (s := s.withEarlierOut earlier) hrun (hfetch.trans hc)

/-! ### The registers -/

/-- `u` is `s` but for what register `r` holds. -/
structure AgreeOff (r : Reg) (s u : State) : Prop where
  reg : ∀ q : Reg, q ≠ r → u.reg q = s.reg q
  mem : u.mem = s.mem
  pc : u.pc = s.pc
  fl : u.fl = s.fl
  run : u.run = s.run
  out : u.out = s.out

section
variable {r q : Reg} {s u t : State} {i : Instr} {n v w : Byte} {c : Cause}

theorem agreeOff_setReg (r : Reg) (s : State) (v : Byte) : AgreeOff r s (s.setReg r v) :=
  ⟨fun _ hq => State.reg_setReg_ne _ _ _ hq, rfl, rfl, rfl, rfl, rfl⟩

namespace AgreeOff

theorem sp (h : AgreeOff r s u) (hr : r ≠ spReg) : u.sp = s.sp := h.reg spReg hr.symm

theorem equalSet (h : AgreeOff r s u) : u.equalSet = s.equalSet := by
  rw [State.equalSet, State.equalSet, h.fl]

theorem pushSlot (h : AgreeOff r s u) (hr : r ≠ spReg) : u.pushSlot = s.pushSlot := by
  rw [State.pushSlot, State.pushSlot, h.sp hr]

/-- A register that is read, by its operand byte, is none that differs. -/
theorem reg_of_names (h : AgreeOff r s u) {l : List Nat} (hr : r.val ∉ l) (hn : Names n q) (hmem : n.toNat ∈ l) :
    u.reg q = s.reg q :=
  h.reg q (reg_ne_of_not_mem hr (hn ▸ hmem)).symm

theorem setReg (h : AgreeOff r s u) (q : Reg) (hv : w = v) : AgreeOff r (s.setReg q v) (u.setReg q w) := by
  refine ⟨fun p hp => ?_, h.mem, h.pc, h.fl, h.run, h.out⟩
  rw [State.reg_setReg, State.reg_setReg, h.reg p hp, hv]

theorem setMem {m m' : Memory} (h : AgreeOff r s u) (hm : m' = m) : AgreeOff r (s.setMem m) (u.setMem m') :=
  ⟨h.reg, hm, h.pc, h.fl, h.run, h.out⟩

theorem advance (h : AgreeOff r s u) (k : Nat) : AgreeOff r (s.advance k) (u.advance k) :=
  ⟨h.reg, h.mem, congrArg (· + k) h.pc, h.fl, h.run, h.out⟩

theorem jumpTo (h : AgreeOff r s u) (hv : w = v) : AgreeOff r (s.jumpTo v) (u.jumpTo w) :=
  ⟨h.reg, h.mem, congrArg BitVec.toNat hv, h.fl, h.run, h.out⟩

theorem setFl (h : AgreeOff r s u) (hv : w = v) : AgreeOff r (s.setFl v) (u.setFl w) :=
  ⟨h.reg, h.mem, h.pc, hv, h.run, h.out⟩

theorem setRun (h : AgreeOff r s u) (x : RunState) : AgreeOff r (s.setRun x) (u.setRun x) :=
  ⟨h.reg, h.mem, h.pc, h.fl, rfl, h.out⟩

theorem emit (h : AgreeOff r s u) (hv : w = v) : AgreeOff r (s.emit v) (u.emit w) :=
  ⟨h.reg, h.mem, h.pc, h.fl, h.run, by rw [State.emit_out, State.emit_out, h.out, hv]⟩

/-- The decrement of the stack pointer, where register 7 is none that differs. -/
theorem decrement (h : AgreeOff r s u) (hr : r ≠ spReg) :
    AgreeOff r (s.setReg spReg s.pushSlot) (u.setReg spReg u.pushSlot) :=
  h.setReg spReg (h.pushSlot hr)

theorem push (h : AgreeOff r s u) (hr : r ≠ spReg) (hv : w = v) :
    AgreeOff r ((s.setReg spReg s.pushSlot).setMem (Memory.write s.pushSlot.toNat v s.mem))
      ((u.setReg spReg u.pushSlot).setMem (Memory.write u.pushSlot.toNat w u.mem)) :=
  (h.decrement hr).setMem (by rw [h.pushSlot hr, h.mem, hv])

/-- The byte at the stack pointer. -/
theorem popped (h : AgreeOff r s u) (hr : r ≠ spReg) :
    Memory.read u.sp.toNat u.mem = Memory.read s.sp.toNat s.mem := by
  rw [h.sp hr, h.mem]

theorem popInto (h : AgreeOff r s u) (hr : r ≠ spReg) (q : Reg) : AgreeOff r (s.popInto q) (u.popInto q) :=
  h.setReg q (h.popped hr)

theorem increment (h : AgreeOff r s u) (hr : r ≠ spReg) :
    AgreeOff r (s.setReg spReg (s.sp + 1)) (u.setReg spReg (u.sp + 1)) :=
  h.setReg spReg (congrArg (· + 1) (h.sp hr))

end AgreeOff

/-- The table of 10_state.md R13, the registers read: an instruction that does not read `r` finishes in
states that again differ in `r` only. -/
theorem Finishes.agreeOff (h : Finishes s i t) (hagree : AgreeOff r s u) (hr : r.val ∉ regReads s.equalSet i) :
    ∃ t', Finishes u i t' ∧ AgreeOff r t t' := by
  cases h with
  | ldi hn imm => exact ⟨_, .ldi hn imm, (hagree.setReg _ rfl).advance 3⟩
  | prn hn => exact ⟨_, .prn hn, (hagree.emit (hagree.reg_of_names hr hn List.mem_cons_self)).advance 2⟩
  | hlt => exact ⟨_, .hlt, hagree.setRun _⟩
  | add ha hb =>
    have hra := hagree.reg_of_names hr ha List.mem_cons_self
    have hrb := hagree.reg_of_names hr hb (List.mem_cons_of_mem _ List.mem_cons_self)
    exact ⟨_, .add ha hb, (hagree.setReg _ (by rw [hra, hrb])).advance 3⟩
  | mul ha hb =>
    have hra := hagree.reg_of_names hr ha List.mem_cons_self
    have hrb := hagree.reg_of_names hr hb (List.mem_cons_of_mem _ List.mem_cons_self)
    exact ⟨_, .mul ha hb, (hagree.setReg _ (by rw [hra, hrb])).advance 3⟩
  | cmp ha hb =>
    have hra := hagree.reg_of_names hr ha List.mem_cons_self
    have hrb := hagree.reg_of_names hr hb (List.mem_cons_of_mem _ List.mem_cons_self)
    exact ⟨_, .cmp ha hb, (hagree.setFl (by rw [hra, hrb])).advance 3⟩
  | push hn hsp =>
    have hr7 : r ≠ spReg := reg_ne_of_not_mem hr List.mem_cons_self
    have hv := (hagree.decrement hr7).reg_of_names hr hn (List.mem_cons_of_mem _ List.mem_cons_self)
    exact ⟨_, .push hn ((hagree.sp hr7).trans_ne hsp), (hagree.push hr7 hv).advance 2⟩
  | @pop n q hn hsp =>
    have hr7 : r ≠ spReg := reg_ne_of_not_mem hr List.mem_cons_self
    have hinto : AgreeOff r (s.popInto q) (u.popInto q) := hagree.popInto hr7 q
    exact ⟨_, .pop hn ((hinto.sp hr7).trans_ne hsp), (hinto.increment hr7).advance 2⟩
  | call hn hsp hra =>
    have hr7 : r ≠ spReg := reg_ne_of_not_mem hr List.mem_cons_self
    have hv := (hagree.decrement hr7).reg_of_names hr hn (List.mem_cons_of_mem _ List.mem_cons_self)
    exact ⟨_, .call hn ((hagree.sp hr7).trans_ne hsp) (hagree.pc ▸ hra),
      (hagree.push hr7 (by rw [hagree.pc])).jumpTo hv⟩
  | ret hsp =>
    have hr7 : r ≠ spReg := reg_ne_of_not_mem hr List.mem_cons_self
    exact ⟨_, .ret ((hagree.sp hr7).trans_ne hsp), (hagree.increment hr7).jumpTo (hagree.popped hr7)⟩
  | jmp hn => exact ⟨_, .jmp hn, hagree.jumpTo (hagree.reg_of_names hr hn List.mem_cons_self)⟩
  | jeq hn =>
    refine ⟨_, .jeq hn, ?_⟩
    rw [hagree.equalSet]
    cases heq : s.equalSet with
    | true =>
      rw [heq] at hr
      exact hagree.jumpTo (hagree.reg_of_names hr hn List.mem_cons_self)
    | false => exact hagree.advance 2
  | jne hn =>
    refine ⟨_, .jne hn, ?_⟩
    rw [hagree.equalSet]
    cases heq : s.equalSet with
    | true => exact hagree.advance 2
    | false =>
      rw [heq] at hr
      exact hagree.jumpTo (hagree.reg_of_names hr hn List.mem_cons_self)

theorem Raises.agreeOff (h : Raises s i c) (hagree : AgreeOff r s u) (hr : r.val ∉ regReads s.equalSet i) :
    Raises u i c := by
  cases h with
  | register hbad => exact hagree.pc ▸ .register hbad
  | push hn hsp =>
    have hr7 : r ≠ spReg := reg_ne_of_not_mem hr List.mem_cons_self
    exact hagree.pc ▸ .push hn ((hagree.sp hr7).trans hsp)
  | call hn hsp =>
    have hr7 : r ≠ spReg := reg_ne_of_not_mem hr List.mem_cons_self
    exact hagree.pc ▸ .call hn ((hagree.sp hr7).trans hsp)
  | returnAddress hn hsp hra =>
    have hr7 : r ≠ spReg := reg_ne_of_not_mem hr List.mem_cons_self
    rw [← hagree.pc] at hra ⊢
    exact .returnAddress hn ((hagree.sp hr7).trans_ne hsp) hra
  | pop hn hsp =>
    have hr7 : r ≠ spReg := reg_ne_of_not_mem hr List.mem_cons_self
    exact hagree.pc ▸ .pop hn (((hagree.popInto hr7 _).sp hr7).trans hsp)
  | ret hsp =>
    have hr7 : r ≠ spReg := reg_ne_of_not_mem hr List.mem_cons_self
    exact hagree.pc ▸ .ret ((hagree.sp hr7).trans hsp)

theorem exec_agreeOff (h : exec i s = .next t) (hagree : AgreeOff r s u) (hr : r.val ∉ regReads s.equalSet i) :
    ∃ t', exec i u = .next t' ∧ AgreeOff r t t' := by
  obtain hdone | ⟨c, hraise, rfl⟩ := exec_next_iff.mp h
  · obtain ⟨t', hdone', hagree'⟩ := hdone.agreeOff hagree hr
    exact ⟨t', exec_of_finishes hdone', hagree'⟩
  · exact ⟨_, exec_of_raises (hraise.agreeOff hagree hr), hagree.setRun _⟩

end

/-- Settles O46: the registers written by `exec_reg_of_not_written`; for the registers read, states that
differ in another register keep doing so only there (`exec_agreeOff`). -/
theorem registersReadAndWritten : Obligations.RegistersReadAndWritten := by
  unfold Obligations.RegistersReadAndWritten
  refine ⟨fun _ _ _ _ => exec_reg_of_not_written, fun i s t r v h hr => ?_⟩
  obtain ⟨u, hu, hagree⟩ := exec_agreeOff h (agreeOff_setReg r s v) hr
  exact ⟨u, hu, hagree.reg, hagree.mem, hagree.pc, hagree.fl, hagree.run, hagree.out⟩

end Sys2Proof.Machine
end

section
/-! PROOFS. 20_memory.md R31 and 70_reset_and_hazards.md, the host's side: the checked read, the actions by
run state, what `load` leaves in memory, and the read-out. -/

namespace Sys2Proof.Machine

/-- Settles O54: the two cases of the checked read. -/
theorem memReadInRangeOrFault : Obligations.MemReadInRangeOrFault := by
  unfold Obligations.MemReadInRangeOrFault
  exact fun s a => ⟨fun hin => if_pos hin, fun hout => if_neg (Nat.not_lt.mpr hout)⟩

section
variable {s t : State} {bytes : List Byte} {c : Cause}

/-! ### The actions by run state -/

theorem hostLoad_of_ready (hrun : s.run = .ready) (hlen : bytes.length ≤ 256) :
    hostLoad bytes s = .next (s.setMem (Memory.fill 0 bytes s.mem)) := by
  rw [hostLoad, hrun]
  exact if_pos hlen

theorem hostLoad_of_too_long (hrun : s.run = .ready) (hlen : 256 < bytes.length) :
    hostLoad bytes s = .refused .loadTooLong := by
  rw [hostLoad, hrun]
  exact if_neg (Nat.not_le.mpr hlen)

/-- A `load` that is answered has filled the memory. -/
theorem hostLoad_next (h : hostLoad bytes s = .next t) : t = s.setMem (Memory.fill 0 bytes s.mem) := by
  cases hrun : s.run with
  | ready =>
    by_cases hlen : bytes.length ≤ 256
    · exact Host.Outcome.next.inj (h.symm.trans (hostLoad_of_ready hrun hlen))
    · simp [hostLoad_of_too_long hrun (Nat.not_le.mp hlen)] at h
  | running | halted | faulted c => simp [hostLoad, hrun] at h

/-- A `run` that is answered has changed the run state only. -/
theorem hostRun_next (h : hostRun s = .next t) : t = s.setRun .running := by
  cases hrun : s.run with
  | ready => exact Host.Outcome.next.inj (h.symm.trans (hostRun_of_ready hrun))
  | running | halted | faulted c => simp [hostRun, hrun] at h

/-! ### `load` -/

theorem read_fill_zero_of_getElem? (hlen : bytes.length ≤ 256) {k : Nat} {b : Byte} (hb : bytes[k]? = some b)
    (m : Memory) : Memory.read k (Memory.fill 0 bytes m) = b := by
  have hk : k < bytes.length := (List.getElem?_eq_some_iff.mp hb).1
  rw [Memory.read_fill, if_pos ⟨Nat.zero_le k, hk.trans_le hlen⟩, Nat.sub_zero, hb, Option.getD_some]

theorem read_fill_zero_beyond {a : Nat} (ha : bytes.length ≤ a) (m : Memory) :
    Memory.read a (Memory.fill 0 bytes m) = Memory.read a m := by
  rw [Memory.read_fill, Nat.sub_zero, List.getElem?_eq_none ha, Option.getD_none, ite_self]

/-! ### The read-out -/

theorem observe_of_faulted (hrun : s.run = .faulted c) : s.observe = .afterFault c s.out := by
  rw [State.observe, hrun]

theorem observe_of_ready_or_halted (hrun : s.run = .ready ∨ s.run = .halted) : s.observe = .whole s := by
  obtain hrun | hrun := hrun <;> rw [State.observe, hrun]

/-- Only the whole state is read out as a whole state. -/
theorem eq_of_observe_whole (h : t.observe = .whole s) : s = t := by
  cases hrun : t.run with
  | ready | halted =>
    rw [observe_of_ready_or_halted (by simp [hrun])] at h
    exact (Observation.whole.inj h).symm
  | running | faulted c => simp [State.observe, hrun] at h

end

/-- Settles O59: each action is a case distinction over the run state, read off row by row. -/
theorem hostActionsByRunState : Obligations.HostActionsByRunState := by
  unfold Obligations.HostActionsByRunState
  refine fun s bytes => ⟨fun hrun => ?_, fun c hrun => ?_, fun hrun => ?_⟩
  · simp only [hostConstruct, hostLoad, hostRun, hrun, and_self]
  · obtain hrun | hrun := hrun <;> simp only [hostConstruct, hostLoad, hostRun, hrun, and_self]
  · exact ⟨by rw [hostConstruct, hrun], _, hostRun_of_ready hrun⟩

/-- Settles O56: the cells the bytes reach and those beyond, by `Memory.read_fill`; `setMem` touches nothing
but the memory. -/
theorem loadFillsMemoryFromZero : Obligations.LoadFillsMemoryFromZero := by
  unfold Obligations.LoadFillsMemoryFromZero
  exact fun s bytes hrun => ⟨fun hlen => ⟨_, hostLoad_of_ready hrun hlen,
    fun _ _ hb => read_fill_zero_of_getElem? hlen hb s.mem, fun _ ha => read_fill_zero_beyond ha s.mem,
    rfl, rfl, rfl, rfl, rfl⟩, hostLoad_of_too_long hrun⟩

/-- Settles O53: reset meets it by its values; `load` writes cells of memory (`Memory.wf_fill`) and `run`
none of the three fields. -/
theorem invariantHoldsAtResetAndAfterLoad : Obligations.InvariantHoldsAtResetAndAfterLoad := by
  unfold Obligations.InvariantHoldsAtResetAndAfterLoad
  refine ⟨⟨State.reset_mem_wf, by decide, rfl⟩, fun s t bytes hinv h => ?_, fun s t hinv h => ?_⟩
  · obtain ⟨hmem, hpc, hfl⟩ := hinv
    rw [hostLoad_next h]
    exact ⟨Memory.wf_fill 0 bytes hmem, hpc, hfl⟩
  · rw [hostRun_next h]
    exact hinv

/-- Settles O45: the read-out in `Faulted` is the constructor of the cause and the output, in `Ready` and
`Halted` that of the state, and constructors are injective. -/
theorem onlyCauseAndOutputAreSeenAfterAFault : Obligations.OnlyCauseAndOutputAreSeenAfterAFault := by
  unfold Obligations.OnlyCauseAndOutputAreSeenAfterAFault
  refine ⟨fun s t c hs ht hout => ?_, fun s t c d hs ht h => ?_, fun s t hs h => ?_, fun s hrun => ?_⟩
  · rw [observe_of_faulted hs, observe_of_faulted ht, hout]
  · rw [observe_of_faulted hs, observe_of_faulted ht] at h
    exact Observation.afterFault.inj h
  · exact eq_of_observe_whole (h.symm.trans (observe_of_ready_or_halted hs))
  · rw [State.observe, hrun]

/-! ### A machine that was never loaded -/

/-- The reset state after the host's `run`. -/
theorem stepWith_reset_running {code : Mnemonic → Byte} (hcode : ∀ m, code m ≠ 0x00#8) :
    stepWith code (State.reset.setRun .running) =
      .next ((State.reset.setRun .running).raise (.invalidOpcode 0 0x00#8)) :=
  stepWith_of_fetch_error rfl (fetchInstrWith_of_not_opcode (by decide) hcode)

/-- Settles O58: cell 0 holds 0x00, which is no opcode of the map, so the first step faults; a run has no
second end (`endsFaulted_unique`). -/
theorem neverLoadedMachineFaultsAtOnce : Obligations.NeverLoadedMachineFaultsAtOnce := by
  unfold Obligations.NeverLoadedMachineFaultsAtOnce
  have hopc : ∀ m, opc m ≠ 0x00#8 := fun m => by cases m <;> decide
  have hstep : step (State.reset.setRun .running) = _ := stepWith_reset_running hopc
  have hends : (State.reset.setRun .running).EndsFaulted (.invalidOpcode 0 0x00#8) :=
    ⟨1, _, run_succ_next.mpr ⟨_, hstep, rfl⟩, rfl⟩
  exact ⟨_, hostRun_of_ready rfl, hstep, fun _ => stepWith_reset_running, hends,
    fun _ hc => endsFaulted_unique hc hends⟩

end Sys2Proof.Machine
end
